-- ==== Sys2Proof/Word.lean ====
section
/-!
DEFINITION. The plain types of the aqa32 core: machine words, register numbers, characters, the twenty
opcode names, the two operand forms and the six operand shapes (spec/00_scope.md R5, spec/30_encoding.md R56, R59).
-/

namespace Sys2Proof

/-- Every register and every memory word is an unsigned 32-bit value (R5, `XLEN`). -/
abbrev Word := BitVec 32

/-- The number of a register that exists: 0 to 12 are `R0` to `R12`, 13 is the program counter (R16). -/
abbrev RegIdx := Fin 14

/-- The program counter's place in the register file (R5, `PC_INDEX`). -/
abbrev pcIdx : RegIdx := 13

/-- A character of the output stream or of an input line: a value in `[0, CHAR_MAX]`,
`CHAR_MAX = 0x10FFFF` (R5, R29, D12). -/
abbrev CodePoint := Fin 1114112

/-- The twenty opcodes, in the source's fixed ordering (R56). -/
inductive Opcode where
  | ldr | str | add | sub | mov | cmp | b | beq | bne | bgt | blt
  | and | orr | eor | mvn | lsl | lsr | halt | inp | out
deriving DecidableEq, Repr

/-- The mode and operand2 fields of a legal word, as one of the two addressing modes (R59). -/
inductive Operand2 where
  /-- Mode 0: operand2 names a register whose value is used (R60). All 16 bits are the index. -/
  | direct (index : BitVec 16)
  /-- Mode 1: operand2 is the value (R61). -/
  | immediate (value : BitVec 16)
deriving DecidableEq, Repr

/-- The operand2 field's 16 bits, whatever the mode. -/
def Operand2.raw : Operand2 → BitVec 16
  | .direct n => n
  | .immediate n => n

/-- An opcode's fixed operand arity and kinds (R56, R80). -/
inductive Shape where
  | addressOnly
  | registerAddress
  | registerOperand2
  | registerRegisterOperand2
  | registerOperand2NoDestination
  | none
deriving DecidableEq, Repr

end Sys2Proof
end

