-- ==== Sys2Proof/Syntax.lean ====
section
/-!
DEFINITION. The instructions: one constructor for each of the twenty rows of spec/opcode_table.json
(spec/30_encoding.md R56). Each keeps the rn and rd fields and the operand of its word, those its opcode does not
use too (R66 ignores them), so that no bit of a legal word is lost (R55).
-/

namespace Sys2Proof

inductive Instr where
  | ldr (rn rd : BitVec 4) (op2 : Operand2)
  | str (rn rd : BitVec 4) (op2 : Operand2)
  | add (rn rd : BitVec 4) (op2 : Operand2)
  | sub (rn rd : BitVec 4) (op2 : Operand2)
  | mov (rn rd : BitVec 4) (op2 : Operand2)
  | cmp (rn rd : BitVec 4) (op2 : Operand2)
  | b (rn rd : BitVec 4) (op2 : Operand2)
  | beq (rn rd : BitVec 4) (op2 : Operand2)
  | bne (rn rd : BitVec 4) (op2 : Operand2)
  | bgt (rn rd : BitVec 4) (op2 : Operand2)
  | blt (rn rd : BitVec 4) (op2 : Operand2)
  | and (rn rd : BitVec 4) (op2 : Operand2)
  | orr (rn rd : BitVec 4) (op2 : Operand2)
  | eor (rn rd : BitVec 4) (op2 : Operand2)
  | mvn (rn rd : BitVec 4) (op2 : Operand2)
  | lsl (rn rd : BitVec 4) (op2 : Operand2)
  | lsr (rn rd : BitVec 4) (op2 : Operand2)
  | halt (rn rd : BitVec 4) (op2 : Operand2)
  | inp (rn rd : BitVec 4) (op2 : Operand2)
  | out (rn rd : BitVec 4) (op2 : Operand2)
deriving DecidableEq, Repr

end Sys2Proof
end

