-- ==== Sys2Proof/WellFormed.lean ====
section
/-!
DEFINITION. What makes an instruction well formed. Every `Instr` has a word (its fields have their encoded
widths), so what is left to check is that the registers it NAMES exist (spec/10_state.md R17,
spec/60_exceptions.md R132: index 14 and above is a fault when the field is used), and, for the assembler's
own output, that the fields the opcode does not use are 0 (spec/31_encoder.md R86).
-/

namespace Sys2Proof

/-- The opcode, rn, rd and operand of an instruction. -/
def Instr.opcode : Instr → Opcode
  | .ldr _ _ _ => .ldr | .str _ _ _ => .str | .add _ _ _ => .add | .sub _ _ _ => .sub
  | .mov _ _ _ => .mov | .cmp _ _ _ => .cmp | .b _ _ _ => .b | .beq _ _ _ => .beq
  | .bne _ _ _ => .bne | .bgt _ _ _ => .bgt | .blt _ _ _ => .blt | .and _ _ _ => .and
  | .orr _ _ _ => .orr | .eor _ _ _ => .eor | .mvn _ _ _ => .mvn | .lsl _ _ _ => .lsl
  | .lsr _ _ _ => .lsr | .halt _ _ _ => .halt | .inp _ _ _ => .inp | .out _ _ _ => .out

@[inherit_doc Instr.opcode]
def Instr.rn : Instr → BitVec 4
  | .ldr n _ _ | .str n _ _ | .add n _ _ | .sub n _ _ | .mov n _ _ | .cmp n _ _ | .b n _ _
  | .beq n _ _ | .bne n _ _ | .bgt n _ _ | .blt n _ _ | .and n _ _ | .orr n _ _ | .eor n _ _
  | .mvn n _ _ | .lsl n _ _ | .lsr n _ _ | .halt n _ _ | .inp n _ _ | .out n _ _ => n

@[inherit_doc Instr.opcode]
def Instr.rd : Instr → BitVec 4
  | .ldr _ d _ | .str _ d _ | .add _ d _ | .sub _ d _ | .mov _ d _ | .cmp _ d _ | .b _ d _
  | .beq _ d _ | .bne _ d _ | .bgt _ d _ | .blt _ d _ | .and _ d _ | .orr _ d _ | .eor _ d _
  | .mvn _ d _ | .lsl _ d _ | .lsr _ d _ | .halt _ d _ | .inp _ d _ | .out _ d _ => d

@[inherit_doc Instr.opcode]
def Instr.op2 : Instr → Operand2
  | .ldr _ _ o | .str _ _ o | .add _ _ o | .sub _ _ o | .mov _ _ o | .cmp _ _ o | .b _ _ o
  | .beq _ _ o | .bne _ _ o | .bgt _ _ o | .blt _ _ o | .and _ _ o | .orr _ _ o | .eor _ _ o
  | .mvn _ _ o | .lsl _ _ o | .lsr _ _ o | .halt _ _ o | .inp _ _ o | .out _ _ o => o

/-- The instruction of an opcode with the three operand fields. -/
def Opcode.instr : Opcode → BitVec 4 → BitVec 4 → Operand2 → Instr
  | .ldr => .ldr | .str => .str | .add => .add | .sub => .sub | .mov => .mov
  | .cmp => .cmp | .b => .b | .beq => .beq | .bne => .bne | .bgt => .bgt
  | .blt => .blt | .and => .and | .orr => .orr | .eor => .eor | .mvn => .mvn
  | .lsl => .lsl | .lsr => .lsr | .halt => .halt | .inp => .inp | .out => .out

/-- The opcode reads `x[rn]` (R58, R132). -/
def Opcode.usesRn : Opcode → Bool
  | .add | .sub | .and | .orr | .eor | .lsl | .lsr | .cmp | .out => true
  | .ldr | .str | .mov | .b | .beq | .bne | .bgt | .blt | .mvn | .halt | .inp => false

/-- The opcode reads or writes `x[rd]` (R58, R132). INP names a register in rd but does neither. -/
def Opcode.usesRd : Opcode → Bool
  | .ldr | .str | .add | .sub | .mov | .and | .orr | .eor | .mvn | .lsl | .lsr => true
  | .cmp | .b | .beq | .bne | .bgt | .blt | .halt | .inp | .out => false

/-- A direct operand names a register that exists; an immediate one always does well (R60). -/
def Operand2.inRange : Operand2 → Bool
  | .direct n => n.toNat < 14
  | .immediate _ => true

/-- Every register the instruction reads or writes exists: no `OutOfRangeAddress` of kind operand2, rn
or rd can be raised (R132). -/
def Instr.wellFormed (i : Instr) : Bool :=
  i.op2.inRange
    && (!i.opcode.usesRn || decide (i.rn.toNat < 14))
    && (!i.opcode.usesRd || decide (i.rd.toNat < 14))

/-- The instruction is one the assembler can produce: it is well formed, every unused field is 0, HALT's
operand is direct 0, and INP's rd, which the machine ignores, still names a register (R81, R86, D36). -/
def Instr.assemblerForm (i : Instr) : Bool :=
  i.wellFormed
    && (i.opcode.usesRn || decide (i.rn = 0#4))
    && (i.opcode.usesRd || decide (i.opcode = .inp) || decide (i.rd = 0#4))
    && (!decide (i.opcode = .inp) || decide (i.rd.toNat < 14))
    && (!decide (i.opcode = .halt) || decide (i.op2 = .direct 0#16))

end Sys2Proof
end

