-- ==== Sys2Proof/Decode.lean ====
section
/-!
DEFINITION. The instruction_decoder block: a word's five fields, the opcode map, the control signals, the
decoder, and the encoder that packs them back (spec/30_encoding.md R53 to R59, R64 to R67).
-/

namespace Sys2Proof

/-- The fields of the one instruction format (R53). -/
structure Fields where
  opcode : BitVec 5
  rn : BitVec 4
  rd : BitVec 4
  mode : BitVec 3
  operand2 : BitVec 16
deriving DecidableEq, Repr

/-- Field extraction (R54). -/
def unpack (w : Word) : Fields where
  opcode := w.extractLsb' 27 5
  rn := w.extractLsb' 23 4
  rd := w.extractLsb' 19 4
  mode := w.extractLsb' 16 3
  operand2 := w.extractLsb' 0 16

/-- Packing, the inverse of `unpack` (R55): the fields side by side, the opcode highest. -/
def pack (f : Fields) : Word :=
  f.opcode ++ f.rn ++ f.rd ++ f.mode ++ f.operand2

/-- The source's fixed ordering; an opcode's position in it is its code (R56). -/
def opcodeTable : List Opcode :=
  [.ldr, .str, .add, .sub, .mov, .cmp, .b, .beq, .bne, .bgt, .blt,
   .and, .orr, .eor, .mvn, .lsl, .lsr, .halt, .inp, .out]

/-- The opcode a 5-bit code selects; codes 20 to 31 select none (R56, R57). -/
def Opcode.ofCode (c : BitVec 5) : Option Opcode := opcodeTable[c.toNat]?

/-- An opcode's 5-bit code (R56). -/
def Opcode.code : Opcode → BitVec 5
  | .ldr => 0#5 | .str => 1#5 | .add => 2#5 | .sub => 3#5 | .mov => 4#5
  | .cmp => 5#5 | .b => 6#5 | .beq => 7#5 | .bne => 8#5 | .bgt => 9#5
  | .blt => 10#5 | .and => 11#5 | .orr => 12#5 | .eor => 13#5 | .mvn => 14#5
  | .lsl => 15#5 | .lsr => 16#5 | .halt => 17#5 | .inp => 18#5 | .out => 19#5

/-- An opcode's shape (R56). -/
def Opcode.shape : Opcode → Shape
  | .ldr | .str | .inp | .out => .registerAddress
  | .add | .sub | .and | .orr | .eor | .lsl | .lsr => .registerRegisterOperand2
  | .mov | .mvn => .registerOperand2
  | .cmp => .registerOperand2NoDestination
  | .b | .beq | .bne | .bgt | .blt => .addressOnly
  | .halt => .none

/-- The addressing mode a 3-bit mode field selects for its operand2; modes 2 to 7 select none (R59). -/
def Operand2.ofMode (mode : BitVec 3) (operand2 : BitVec 16) : Option Operand2 :=
  if mode = 0#3 then some (.direct operand2)
  else if mode = 1#3 then some (.immediate operand2)
  else none

/-- The mode field of an operand form (R59). -/
def Operand2.mode : Operand2 → BitVec 3
  | .direct _ => 0#3
  | .immediate _ => 1#3

/-- Why a word selects no instruction (R67). -/
inductive DecodeFault where
  /-- The opcode field is 20 to 31 (R57). -/
  | illegalOpcode (opcode : BitVec 5)
  /-- The opcode is legal and the mode field is 2 to 7 (R59). -/
  | illegalMode (mode : BitVec 3)
deriving DecidableEq, Repr

/-- The instruction a word's fields give. The opcode is tested before the mode (R67, R139). -/
def decodeFields (f : Fields) : Except DecodeFault Instr :=
  match Opcode.ofCode f.opcode with
  | none => .error (.illegalOpcode f.opcode)
  | some op =>
    match Operand2.ofMode f.mode f.operand2 with
    | none => .error (.illegalMode f.mode)
    | some o => .ok (op.instr f.rn f.rd o)

/-- The decoder: total on every 32-bit word (R65, R67). -/
def decode (w : Word) : Except DecodeFault Instr := decodeFields (unpack w)

/-- The fields of an instruction (R53, R56). -/
def Instr.fields (i : Instr) : Fields where
  opcode := i.opcode.code
  rn := i.rn
  rd := i.rd
  mode := i.op2.mode
  operand2 := i.op2.raw

/-- The word of an instruction (R55, R56). -/
def encode (i : Instr) : Word := pack i.fields

/-- What the alu_dispatch block computes (R64, R106); `cmp` is the compare function of R118. -/
inductive AluOp where
  | add | sub | passB | cmp | and | or | xor | notB | shl | shr
deriving DecidableEq, Repr

/-- When a branch is taken (R64, R117). -/
inductive BrCond where
  | never | always | cmpEq | cmpNe | cmpGt | cmpLt
deriving DecidableEq, Repr

/-- The system function of an opcode (R64). -/
inductive SysOp where
  | halt | inp | out
deriving DecidableEq, Repr

/-- The control signals of R64. -/
structure Controls where
  aluOp : Option AluOp := none
  /-- `x[rd]` is written through port E. -/
  rdWe : Bool := false
  /-- `x[rn]` is read through port A. -/
  rnRe : Bool := false
  /-- `x[rd]` is read through port C. -/
  rdRe : Bool := false
  memRe : Bool := false
  memWe : Bool := false
  brCond : BrCond := .never
  cmpWe : Bool := false
  sys : Option SysOp := none
deriving DecidableEq, Repr

/-- R64's table, a row per opcode. -/
def Opcode.controls : Opcode → Controls
  | .ldr => { rdWe := true, memRe := true }
  | .str => { rdRe := true, memWe := true }
  | .add => { aluOp := some .add, rdWe := true, rnRe := true }
  | .sub => { aluOp := some .sub, rdWe := true, rnRe := true }
  | .mov => { aluOp := some .passB, rdWe := true }
  | .cmp => { aluOp := some .cmp, rnRe := true, cmpWe := true }
  | .b => { brCond := .always }
  | .beq => { brCond := .cmpEq }
  | .bne => { brCond := .cmpNe }
  | .bgt => { brCond := .cmpGt }
  | .blt => { brCond := .cmpLt }
  | .and => { aluOp := some .and, rdWe := true, rnRe := true }
  | .orr => { aluOp := some .or, rdWe := true, rnRe := true }
  | .eor => { aluOp := some .xor, rdWe := true, rnRe := true }
  | .mvn => { aluOp := some .notB, rdWe := true }
  | .lsl => { aluOp := some .shl, rdWe := true, rnRe := true }
  | .lsr => { aluOp := some .shr, rdWe := true, rnRe := true }
  | .halt => { sys := some .halt }
  | .inp => { sys := some .inp }
  | .out => { rnRe := true, sys := some .out }

/-- The instruction_decoder's interface (R65): the fields, the two verdicts, and the controls of a legal opcode. -/
structure DecoderOutput where
  fields : Fields
  legalOpcode : Bool
  legalMode : Bool
  controls : Option Controls
deriving DecidableEq, Repr

/-- The instruction_decoder block (R65). -/
def decoderBlock (w : Word) : DecoderOutput where
  fields := unpack w
  legalOpcode := (unpack w).opcode.toNat < 20
  legalMode := (unpack w).mode.toNat < 2
  controls := (Opcode.ofCode (unpack w).opcode).map Opcode.controls

/-- The instruction the decoder reads from an instruction of `nbits` bits `w`, bit 0 the least significant; an
instruction is one 32-bit word, which memory holds whole (R53, R41). -/
def decodeTableWord (nbits w : Nat) : Option Instr :=
  (decode (BitVec.ofNat 32 (w % 2 ^ nbits))).toOption

end Sys2Proof
end

