-- ==== Sys2Proof/Config.lean ====
section
/-!
DEFINITION. What an implementation fixes (spec/00_scope.md R5, spec/92_eei_decisions.md "Open parameters") and the
one value the spec leaves free. A model must take `DEV_DEC` and `DEV_CHR` as arguments: they have no
default, so here they are constants without a body.
-/

namespace Sys2Proof

/-- The parameters the host gives `construct` (R102): fixed for the life of a machine (R32, R36). -/
structure Params where
  /-- `MEM_WORDS`, the number of memory words. -/
  memWords : Nat
  /-- `DEV_DEC`, the OUT selector of the decimal rendering. -/
  devDec : Word
  /-- `DEV_CHR`, the OUT selector of the single-character rendering. -/
  devChr : Word
deriving DecidableEq, Repr

/-- The ranges R5 gives the parameters: `1 <= MEM_WORDS <= 2^32` and `DEV_CHR != DEV_DEC` (D11, D16). -/
abbrev Params.wf (p : Params) : Prop :=
  1 ≤ p.memWords ∧ p.memWords ≤ 4294967296 ∧ p.devChr ≠ p.devDec

/-- `MEM_WORDS`' default (R5, D16). -/
def Config.memWordsDefault : Nat := 256

/-- `CHAR_MAX` (R5, D12). -/
def Config.charMax : Nat := 1114111

/-- `DEV_DEC`: OPEN in the spec (D11), so nothing is known of it. -/
opaque Config.devDec : Word

/-- How far `DEV_CHR` lies above `DEV_DEC`, less one, modulo `2^32`: free, and such that the two selectors differ. -/
opaque Config.devChrGap : Fin 4294967295

/-- `DEV_CHR`: OPEN in the spec (D11) but for `DEV_CHR != DEV_DEC`; every such value is one choice of the gap. -/
def Config.devChr : Word := Config.devDec + BitVec.ofNat 32 (Config.devChrGap.val + 1)

/-- Whether `x[13]` keeps its increment when a step faults: "which of the two being unspecified"
(R99, D17, U3). Applied to `State.draws`. -/
opaque Config.faultKeepsIncrement : Nat → Bool

end Sys2Proof
end

