-- ==== Sys2Proof/Machine/Platform.lean ====
section
/-!
DEFINITION. The parameters `Sys2Proof.Machine.State.reset` is constructed with.
-/

namespace Sys2Proof.Machine

/-- The parameters of the machine that `State.reset` is: the default memory size (R5) and the two OPEN device
selectors (D11). Statements about all states hold for every other choice too. -/
def resetParams : Params where
  memWords := Config.memWordsDefault
  devDec := Config.devDec
  devChr := Config.devChr

end Sys2Proof.Machine
end

