-- ==== Sys2Proof/Machine/State.lean ====
section
/-!
DEFINITION. The state of the machine, whole (spec/10_state.md R28), the faults (spec/60_exceptions.md R130), the
refusals, and the state after construction (R35).
-/

namespace Sys2Proof.Machine

/-- The memory: a list of (word address, word) pairs, addresses strictly rising and no word 0, which is what an
unlisted address reads as (R35). Memory has no bytes: its cells are 32-bit words (R41, D34; log 2). -/
abbrev Mem := List (Nat × Word)

/-- What an unlisted word reads as: the constructed value (R35, R46, D14; log 3). -/
def Mem.unlisted : Word := 0#32

/-- Addresses strictly rise, the first is `lo` or more, and no listed word is the unlisted value. -/
def Mem.wfFrom : Nat → Mem → Bool
  | _, [] => true
  | lo, (a, w) :: m => decide (lo ≤ a) && decide (w ≠ Mem.unlisted) && Mem.wfFrom (a + 1) m

/-- The canonical form of a memory: equal memories are equal lists. -/
def Mem.wf (m : Mem) : Bool := Mem.wfFrom 0 m

/-- Which index was out of range (R130, R132). -/
inductive Which where
  | fetch | operand2 | rn | rd | data | load
deriving DecidableEq, Repr

/-- The faults of R130, each with the information it records and `pc0`, the address of the word whose step
faulted. A fault is the spec's own end of a step and of the run (R94, R99, R137): safe, since the machine stops
where the spec says it does. -/
inductive Fault where
  /-- Code 1. Raised by a step begun after HALT (R96, R131). Safe: the spec's own fault. -/
  | haltedStep (pc0 : Word)
  /-- Code 2. Raised by fetch, by operand2 resolution and by every arm that uses a register field or a memory
  address that does not exist (R132). Safe: the spec's own fault. -/
  | outOfRangeAddress (which : Which) (index : Nat) (pc0 : Word)
  /-- Code 3. Raised by decoding an opcode of 20 to 31 (R133). Safe: the spec's own fault. -/
  | illegalOpcode (opcode : BitVec 5) (pc0 : Word)
  /-- Code 4. Raised by decoding a mode of 2 to 7 of a legal opcode (R134). Safe: the spec's own fault. -/
  | illegalMode (mode : BitVec 3) (pc0 : Word)
  /-- Code 5. Raised by OUT with a selector that is neither device's (R135). Safe: the spec's own fault. -/
  | unsupportedDevice (selector : Word) (pc0 : Word)
  /-- Code 6. Raised by OUT when the character selector meets a value above `CHAR_MAX` (R136). Safe: the spec's
  own fault. -/
  | unrepresentableCharacter (value : Word) (pc0 : Word)
deriving DecidableEq, Repr

/-- A step that does not exist: R94's third outcome, neither a successor state nor a fault. -/
inductive Refusal where
  /-- Raised by no arm of this model: every instruction has its meaning. Safe. -/
  | notModelled (mnemonic : String)
  /-- Raised by INP while the input channel is empty: "no step exists", the machine waits for the host's line
  and nothing has changed (R94, R126, U4). Safe: the spec's own wait. -/
  | awaitingInput
  /-- Raised by `step` on a machine with a fault record: "no step exists" (R31, R95). Safe: the spec's own
  end of the run. -/
  | runOver
deriving DecidableEq, Repr

/-- The complete state of the machine (R28), its constant parameters, and the model's own index of free values. -/
structure State where
  /-- The register file; index 13 is the program counter (R16). -/
  regs : Vector Word 14
  /-- The compare flag, the exact difference of the latest CMP (R24). -/
  cmp : Int
  /-- The halted flag (R27). -/
  halted : Bool
  /-- The memory words (R36). -/
  mem : Mem
  /-- The output stream (R29). -/
  output : List CodePoint
  /-- The input channel, the oldest line first (R30). -/
  input : List (List CodePoint)
  /-- The fault record: the fault carries its kind, its information and `pc0` (R31). -/
  fault : Option Fault
  /-- The parameters of construction; no step changes them (R32). -/
  params : Params
  /-- The model's own: how many free values were drawn (log 5). -/
  draws : Nat
deriving DecidableEq, Repr

/-- One step's outcome (R94): a successor state, a fault, or no step at all. -/
abbrev Res := Host.Outcome State Fault Refusal

/-- A freshly constructed machine, memory empty of any image (R35, R102). -/
def State.construct (p : Params) : State where
  regs := Vector.replicate 14 0#32
  cmp := 0
  halted := false
  mem := []
  output := []
  input := []
  fault := none
  params := p
  draws := 0

/-- Reset is construction (R149). -/
def State.reset : State := State.construct resetParams

end Sys2Proof.Machine
end

