-- ==== Sys2Proof/Machine/Ops.lean ====
section
/-!
DEFINITION. The named operations over registers and memory, the raising and the recording of a fault, fetch,
`load`, and the observation of state (spec/10_state.md R16 to R31, spec/20_memory.md R36 to R46,
spec/40_step.md R95 to R102, spec/60_exceptions.md R130 to R141).
-/

namespace Sys2Proof.Machine

/-! ### The register file (R16 to R19) -/

/-- The register index a field names, if that register exists (R17). -/
def regIdx? (n : Nat) : Option RegIdx :=
  if h : n < 14 then some ⟨n, h⟩ else none

/-- The content of register `i`: every read port ends here (R18). -/
def State.reg (s : State) (i : RegIdx) : Word := s.regs[i]

/-- Register `i` written with `v`: every write port ends here (R17, R19). -/
def State.setReg (s : State) (i : RegIdx) (v : Word) : State :=
  { s with regs := s.regs.set i v }

/-- The program counter (R21). Before a step it is `pc0`; this is read port F (R18). -/
def State.pc (s : State) : Word := s.reg pcIdx

/-- Write port S: the pc moves past the fetched word, modulo `2^32` (R19, R22, D32). -/
def State.portS (s : State) : State := s.setReg pcIdx (s.pc + 1#32)

/-- Write port E, the one write of an execute arm; at index 13 it replaces what port S wrote (R19). -/
def State.portE (s : State) (i : RegIdx) (v : Word) : State := s.setReg i v

/-! ### Memory (R36 to R43) -/

/-- The word at an address of the list, the unlisted value where there is none. -/
def Mem.read : Mem → Nat → Word
  | [], _ => Mem.unlisted
  | (b, w) :: m, a => if a = b then w else Mem.read m a

/-- The list with the word at `a` replaced, in canonical form again. -/
def Mem.write : Mem → Nat → Word → Mem
  | [], a, v => if v = Mem.unlisted then [] else [(a, v)]
  | (b, w) :: m, a, v =>
    if a < b then (if v = Mem.unlisted then (b, w) :: m else (a, v) :: (b, w) :: m)
    else if a = b then (if v = Mem.unlisted then m else (a, v) :: m)
    else (b, w) :: Mem.write m a v

/-- `MemRead(a, 1)`; none is the fault's case `a >= MEM_WORDS` (R39). -/
def State.memRead (s : State) (a : Nat) : Option Word :=
  if a < s.params.memWords then some (s.mem.read a) else none

/-- `MemWrite(a, 1, v)`; none is the fault's case `a >= MEM_WORDS` (R39). -/
def State.memWrite (s : State) (a : Nat) (v : Word) : Option State :=
  if a < s.params.memWords then some { s with mem := s.mem.write a v } else none

/-! ### The other state -/

/-- `cmp <- d` (R24). -/
def State.setCmp (s : State) (d : Int) : State := { s with cmp := d }

/-- `halted <- true` (R27). -/
def State.halt (s : State) : State := { s with halted := true }

/-- `OutAppend` (R8, R29): the stream grows at its end. -/
def State.outAppend (s : State) (t : List CodePoint) : State := { s with output := s.output ++ t }

/-- `InTake`: the channel without its first line, which nothing keeps (R8, R30); none while the channel is empty. -/
def State.inTake (s : State) : Option State :=
  match s.input with
  | [] => none
  | _ :: rest => some { s with input := rest }

/-- The host supplies one input line (R102). -/
def State.supplyLine (s : State) (line : List CodePoint) : State := { s with input := s.input ++ [line] }

/-! ### Faults -/

/-- The fault's numeric code (R130, D18). -/
def Fault.code : Fault → Nat
  | .haltedStep _ => 1
  | .outOfRangeAddress _ _ _ => 2
  | .illegalOpcode _ _ => 3
  | .illegalMode _ _ => 4
  | .unsupportedDevice _ _ => 5
  | .unrepresentableCharacter _ _ => 6

/-- The address of the word whose step faulted (R31, R130). -/
def Fault.pc0 : Fault → Word
  | .haltedStep p | .outOfRangeAddress _ _ p | .illegalOpcode _ p | .illegalMode _ p
  | .unsupportedDevice _ p | .unrepresentableCharacter _ p => p

/-- `raise F(info)` in a step begun at `s`: the step is aborted, and the fault carries `pc0` (R8, R99). Every
fault of this machine is raised here. There is no entry to a handler and no return (R140, R141). -/
def raise (s : State) (f : Word → Fault) : Res := .fault (f s.pc)

/-- The state a fault of a step begun at `s` leaves behind (R99): the fault record is set, everything else is as
before the step, and `x[13]` is `pc0` or `pc0 + 1`, a free choice (U3, log 5). A step after HALT changes nothing
but the record (R96). -/
def State.afterFault (s : State) (f : Fault) : State :=
  match f with
  | .haltedStep _ => { s with fault := some f }
  | _ =>
    { (if Config.faultKeepsIncrement s.draws then s.portS else s) with
      fault := some f, draws := s.draws + 1 }

/-! ### What comes before execution (R95 to R97) -/

/-- The fault of a word that selects no instruction (R57, R59). -/
def decodeFault (pc0 : Word) : DecodeFault → Fault
  | .illegalOpcode op => .illegalOpcode op pc0
  | .illegalMode m => .illegalMode m pc0

/-- The head of R95: no step exists on a machine with a fault record; a halted machine faults; otherwise the word
at `pc0` is fetched and decoded. -/
def fetchInstr (s : State) : Host.Outcome Instr Fault Refusal :=
  if s.fault.isSome then .refused .runOver
  else if s.halted then .fault (.haltedStep s.pc)
  else
    match s.memRead s.pc.toNat with
    | none => .fault (.outOfRangeAddress .fetch s.pc.toNat s.pc)
    | some w =>
      match decode w with
      | .error e => .fault (decodeFault s.pc e)
      | .ok i => .next i

/-! ### The host's other actions (R46, R102) -/

/-- The memory with the words of an image written from address `a` on (R46). -/
def Mem.writeImage : Mem → Nat → List Word → Mem
  | m, _, [] => m
  | m, a, w :: ws => Mem.writeImage (m.write a w) (a + 1) ws

/-- The refusal of an image longer than memory: `OutOfRangeAddress(which = load, index = MEM_WORDS)`, with no
`pc0`, since it happens before any step (R46, R130). -/
structure LoadRefusal where
  which : Which
  index : Nat
deriving DecidableEq, Repr

/-- `load(word_image)` (R46, D15). -/
def State.load (s : State) (image : List Word) : Except LoadRefusal State :=
  if image.length ≤ s.params.memWords then .ok { s with mem := s.mem.writeImage 0 image }
  else .error ⟨.load, s.params.memWords⟩

/-- The word `w` put where the next step fetches (for `State.withFetchWord`): at word address `pc`. -/
def State.placeFetchWord (s : State) (w : Word) : State :=
  { s with mem := s.mem.write s.pc.toNat w }

/-- What the host may observe between steps (R102). -/
structure Observation where
  halted : Bool
  registers : List Word
  memory : Mem
  cmp : Int
  output : List CodePoint
  fault : Option Fault
deriving DecidableEq, Repr

/-- The read-only projection of the state (R102). -/
def State.observe (s : State) : Observation where
  halted := s.halted
  registers := s.regs.toList
  memory := s.mem
  cmp := s.cmp
  output := s.output
  fault := s.fault

end Sys2Proof.Machine
end

