-- ==== Sys2Proof/Machine/Operands.lean ====
section
/-!
DEFINITION. Operand forms: the memory_address_mux, which resolves operand2, and the checks of the register
fields (spec/30_encoding.md R60 to R63, spec/60_exceptions.md R132). An execute arm runs inside these: `s` is the
state the step began in, `t` the state after write port S, in which `x[13]` reads `pc0 + 1`.
-/

namespace Sys2Proof.Machine

/-- Operand2 resolution in a state whose pc already moved (R60 to R62); none is the index that names no register. -/
def resolve (t : State) : Operand2 → Option Word
  | .direct n => (regIdx? n.toNat).map t.reg
  | .immediate v => some (v.zeroExtend 32)

/-- The step's common part after decoding (R95): port S, then operand2 resolution, for every opcode (R62, D6);
`k` is the execute arm. -/
def withOp2 (o : Operand2) (s : State) (k : Word → State → Res) : Res :=
  match resolve s.portS o with
  | some op2 => k op2 s.portS
  | none => raise s (.outOfRangeAddress .operand2 o.raw.toNat)

/-- The check of a register field the opcode uses (R132). -/
def withField (which : Which) (field : BitVec 4) (s : State) (k : RegIdx → Res) : Res :=
  match regIdx? field.toNat with
  | some i => k i
  | none => raise s (.outOfRangeAddress which field.toNat)

end Sys2Proof.Machine
end

