-- ==== Sys2Proof/Machine/Alu.lean ====
section
/-!
DEFINITION. The alu_dispatch block and the nine instructions that write its result to `x[rd]`
(spec/42_alu.md). None of them writes `cmp` (R25, R107).
-/

namespace Sys2Proof.Machine

/-- The alu_dispatch block (R106): 32-bit unsigned, wrapping; a shift takes the whole of `b` as its amount and
gives 0 from 32 on (R107, D8). The compare function's 32-bit output is not used (R118 computes `cmp` exactly). -/
def alu (op : AluOp) (a b : Word) : Word :=
  match op with
  | .add => a + b
  | .sub => a - b
  | .passB => b
  | .cmp => a - b
  | .and => a &&& b
  | .or => a ||| b
  | .xor => a ^^^ b
  | .notB => ~~~b
  | .shl => if b.toNat < 32 then a <<< b.toNat else 0#32
  | .shr => if b.toNat < 32 then a >>> b.toNat else 0#32

/-- `x[rd] <- alu(op, x[rn], op2)`: rn is checked before rd, and the sources are read before the write (R19, R139). -/
def aluRegister (op : AluOp) (rn rd : BitVec 4) (o : Operand2) (s : State) : Res :=
  withOp2 o s fun op2 t =>
    withField .rn rn s fun n =>
      withField .rd rd s fun d =>
        .next (t.portE d (alu op (t.reg n) op2))

/-- `x[rd] <- alu(op, -, op2)`, for the two functions that have no first source (R110, R114). -/
def aluMove (op : AluOp) (rd : BitVec 4) (o : Operand2) (s : State) : Res :=
  withOp2 o s fun op2 t =>
    withField .rd rd s fun d =>
      .next (t.portE d (alu op 0#32 op2))

/-- ADD (R108). -/
def execAdd (rn rd : BitVec 4) (o : Operand2) (s : State) : Res := aluRegister .add rn rd o s

/-- SUB (R109). -/
def execSub (rn rd : BitVec 4) (o : Operand2) (s : State) : Res := aluRegister .sub rn rd o s

/-- MOV (R110). -/
def execMov (rd : BitVec 4) (o : Operand2) (s : State) : Res := aluMove .passB rd o s

/-- AND (R111). -/
def execAnd (rn rd : BitVec 4) (o : Operand2) (s : State) : Res := aluRegister .and rn rd o s

/-- ORR (R112, D2). -/
def execOrr (rn rd : BitVec 4) (o : Operand2) (s : State) : Res := aluRegister .or rn rd o s

/-- EOR (R113). -/
def execEor (rn rd : BitVec 4) (o : Operand2) (s : State) : Res := aluRegister .xor rn rd o s

/-- MVN (R114, D9). -/
def execMvn (rd : BitVec 4) (o : Operand2) (s : State) : Res := aluMove .notB rd o s

/-- LSL (R115, D8). -/
def execLsl (rn rd : BitVec 4) (o : Operand2) (s : State) : Res := aluRegister .shl rn rd o s

/-- LSR (R116, D8). -/
def execLsr (rn rd : BitVec 4) (o : Operand2) (s : State) : Res := aluRegister .shr rn rd o s

end Sys2Proof.Machine
end

