-- ==== Sys2Proof/Machine/Flags.lean ====
section
/-!
DEFINITION. The compare flag: the one flag of the core (spec/10_state.md R24 to R26), how CMP computes it and how a
branch reads it (spec/43_compare_branch.md R117, R118).
-/

namespace Sys2Proof.Machine

/-- CMP's result: the exact integer difference of two unsigned values, never reduced modulo `2^32` (R118, D3). -/
def exactDifference (a b : Word) : Int := (a.toNat : Int) - (b.toNat : Int)

/-- Whether a branch with this condition is taken (R117). -/
def branchTaken (c : BrCond) (cmp : Int) : Bool :=
  match c with
  | .never => false
  | .always => true
  | .cmpEq => decide (cmp = 0)
  | .cmpNe => decide (cmp ≠ 0)
  | .cmpGt => decide (0 < cmp)
  | .cmpLt => decide (cmp < 0)

/-- The branch_logic block (R117): whether the branch is taken, and its target, which is always `op2`. -/
def branchLogic (op : Opcode) (cmp : Int) (op2 : Word) : Bool × Word :=
  (branchTaken op.controls.brCond cmp, op2)

end Sys2Proof.Machine
end

