-- ==== Sys2Proof/Machine/CompareBranch.lean ====
section
/-!
DEFINITION. CMP and the five branches (spec/43_compare_branch.md).
-/

namespace Sys2Proof.Machine

/-- CMP (R118): the one instruction that writes `cmp` (R25). -/
def execCmp (rn : BitVec 4) (o : Operand2) (s : State) : Res :=
  withOp2 o s fun op2 t =>
    withField .rn rn s fun n =>
      .next (t.setCmp (exactDifference (t.reg n) op2))

/-- A branch of opcode `op` (R117): taken, the pc becomes `op2` through port E; not taken, it stays `pc0 + 1`. -/
def branch (op : Opcode) (o : Operand2) (s : State) : Res :=
  withOp2 o s fun op2 t =>
    match branchLogic op t.cmp op2 with
    | (true, target) => .next (t.portE pcIdx target)
    | (false, _) => .next t

/-- B (R119). -/
def execB (o : Operand2) (s : State) : Res := branch .b o s

/-- BEQ (R120). -/
def execBeq (o : Operand2) (s : State) : Res := branch .beq o s

/-- BNE (R121). -/
def execBne (o : Operand2) (s : State) : Res := branch .bne o s

/-- BGT (R122). -/
def execBgt (o : Operand2) (s : State) : Res := branch .bgt o s

/-- BLT (R123). -/
def execBlt (o : Operand2) (s : State) : Res := branch .blt o s

end Sys2Proof.Machine
end

