-- ==== Sys2Proof/Machine/LoadStore.lean ====
section
/-!
DEFINITION. Loads and stores: LDR, STR (spec/41_load_store.md). The memory address is `op2`, a word address.
-/

namespace Sys2Proof.Machine

/-- LDR (R104). -/
def execLdr (rd : BitVec 4) (o : Operand2) (s : State) : Res :=
  withOp2 o s fun op2 t =>
    withField .rd rd s fun d =>
      match t.memRead op2.toNat with
      | some v => .next (t.portE d v)
      | none => raise s (.outOfRangeAddress .data op2.toNat)

/-- STR (R105). The rd field is the register stored; it is read through port C, so `STR PC` stores `pc0 + 1`. -/
def execStr (rd : BitVec 4) (o : Operand2) (s : State) : Res :=
  withOp2 o s fun op2 t =>
    withField .rd rd s fun d =>
      match t.memWrite op2.toNat (t.reg d) with
      | some u => .next u
      | none => raise s (.outOfRangeAddress .data op2.toNat)

end Sys2Proof.Machine
end

