-- ==== Sys2Proof/Machine/SystemIo.lean ====
section
/-!
DEFINITION. HALT, INP and OUT, and OUT's two renderings (spec/44_system_io.md).
-/

namespace Sys2Proof.Machine

/-- The character of one decimal digit: `0` is code 48. -/
def digitChar (d : Nat) : CodePoint := Fin.ofNat 1114112 (48 + d)

/-- The last `k` base-10 digits of `n` at most, most significant first, no leading zeros (R127). -/
def decDigits : Nat → Nat → List CodePoint
  | 0, _ => []
  | k + 1, n => if n < 10 then [digitChar n] else decDigits k (n / 10) ++ [digitChar (n % 10)]

/-- `dec(v)`, the decimal-unsigned rendering (R127, D12); ten digits hold every 32-bit value. -/
def decText (v : Word) : List CodePoint := decDigits 10 v.toNat

/-- `chr(v)`, the single-character rendering; none is the value above `CHAR_MAX` (R127, D12). -/
def chrText (v : Word) : Option (List CodePoint) :=
  if h : v.toNat ≤ Config.charMax then some [⟨v.toNat, Nat.lt_succ_of_le h⟩] else none

/-- HALT (R125). -/
def execHalt (o : Operand2) (s : State) : Res :=
  withOp2 o s fun _ t => .next t.halt

/-- INP (R126): takes one line and discards it; with none there is no step. The rd field is not accessed. -/
def execInp (o : Operand2) (s : State) : Res :=
  withOp2 o s fun _ t =>
    match t.inTake with
    | some u => .next u
    | none => .refused .awaitingInput

/-- OUT (R128): the register in rn, rendered as the selector `op2` chooses. -/
def execOut (rn : BitVec 4) (o : Operand2) (s : State) : Res :=
  withOp2 o s fun op2 t =>
    withField .rn rn s fun n =>
      if op2 = s.params.devDec then .next (t.outAppend (decText (t.reg n)))
      else if op2 = s.params.devChr then
        match chrText (t.reg n) with
        | some c => .next (t.outAppend c)
        | none => raise s (.unrepresentableCharacter (t.reg n))
      else raise s (.unsupportedDevice op2)

end Sys2Proof.Machine
end

