-- ==== Sys2Proof/Machine/Dispatch.lean ====
section
/-!
DEFINITION. The execute dispatch: one arm per instruction and no default arm (spec/40_step.md R98).
`s` is the state the step began in, its pc still the address of the instruction's own word.
-/

namespace Sys2Proof.Machine

def exec (i : Instr) (s : State) : Host.Outcome State Fault Refusal :=
  match i with
  | .ldr _ rd o => Sys2Proof.Machine.execLdr rd o s
  | .str _ rd o => Sys2Proof.Machine.execStr rd o s
  | .add rn rd o => Sys2Proof.Machine.execAdd rn rd o s
  | .sub rn rd o => Sys2Proof.Machine.execSub rn rd o s
  | .mov _ rd o => Sys2Proof.Machine.execMov rd o s
  | .cmp rn _ o => Sys2Proof.Machine.execCmp rn o s
  | .b _ _ o => Sys2Proof.Machine.execB o s
  | .beq _ _ o => Sys2Proof.Machine.execBeq o s
  | .bne _ _ o => Sys2Proof.Machine.execBne o s
  | .bgt _ _ o => Sys2Proof.Machine.execBgt o s
  | .blt _ _ o => Sys2Proof.Machine.execBlt o s
  | .and rn rd o => Sys2Proof.Machine.execAnd rn rd o s
  | .orr rn rd o => Sys2Proof.Machine.execOrr rn rd o s
  | .eor rn rd o => Sys2Proof.Machine.execEor rn rd o s
  | .mvn _ rd o => Sys2Proof.Machine.execMvn rd o s
  | .lsl rn rd o => Sys2Proof.Machine.execLsl rn rd o s
  | .lsr rn rd o => Sys2Proof.Machine.execLsr rn rd o s
  | .halt _ _ o => Sys2Proof.Machine.execHalt o s
  | .inp _ _ o => Sys2Proof.Machine.execInp o s
  | .out rn _ o => Sys2Proof.Machine.execOut rn o s

end Sys2Proof.Machine
end

