-- ==== Sys2Proof/Machine/Step.lean ====
section
/-!
DEFINITION. One step: fetch, decode, execute (spec/40_step.md R94, R95).
-/

namespace Sys2Proof.Machine

/-- One fetch-decode-execute cycle (R95). -/
def step (s : State) : Host.Outcome State Fault Refusal :=
  match fetchInstr s with
  | .next i => exec i s
  | .fault f => .fault f
  | .refused r => .refused r

/-- `s` with the instruction whose bits are `w` stored where `step` fetches next: the word at the pc's address
(log 8). -/
def State.withFetchWord (s : State) (nbits w : Nat) : State :=
  s.placeFetchWord (BitVec.ofNat 32 (w % 2 ^ nbits))

end Sys2Proof.Machine
end

