-- ==== Sys2Proof/Machine/Assembler.lean ====
section
/-!
DEFINITION. The instruction_encoder block: the assembler, source text to a word image and a source map
(spec/31_encoder.md R69 to R92). A pure function; it shares with the machine only the word layout.
-/

namespace Sys2Proof.Machine

/-- Source text, a line of it, or a token (R9). -/
abbrev Text := List Char

/-! ### Characters and lines (R70, R71) -/

/-- Whitespace within a line: space, tab, carriage return, vertical tab, form feed (R71). -/
def isSpace (c : Char) : Bool :=
  c == ' ' || c == '\t' || c == '\r' || c == '\x0b' || c == '\x0c'

/-- Tokens are split at whitespace and at commas (R71, D21). -/
def isDelimiter (c : Char) : Bool := isSpace c || c == ','

/-- The decimal digits (R84). -/
def isDigit (c : Char) : Bool := decide ('0' ≤ c) && decide (c ≤ '9')

/-- The hexadecimal digits (R84). -/
def isHexDigit (c : Char) : Bool :=
  isDigit c || (decide ('a' ≤ c) && decide (c ≤ 'f')) || (decide ('A' ≤ c) && decide (c ≤ 'F'))

/-- The letters a label may hold: DESIGN CHOICE, the ASCII ones (R72, log 20). -/
def isLetter (c : Char) : Bool :=
  (decide ('a' ≤ c) && decide (c ≤ 'z')) || (decide ('A' ≤ c) && decide (c ≤ 'Z'))

/-- A text cut at every character of a kind; empty pieces are kept. -/
def splitAtAll (p : Char → Bool) : Text → List Text
  | [] => [[]]
  | c :: cs =>
    match splitAtAll p cs with
    | [] => [[]]
    | piece :: rest => if p c then [] :: piece :: rest else (c :: piece) :: rest

/-- The lines of a source text (R70). -/
def sourceLines (text : Text) : List Text := splitAtAll (· == '\n') text

/-- A line without leading and trailing whitespace (R89, log 25). -/
def trim (line : Text) : Text :=
  ((line.dropWhile isSpace).reverse.dropWhile isSpace).reverse

/-! ### Tokenizing (R71) -/

/-- The token begins with the comment marker `//`. -/
def isComment : Text → Bool
  | '/' :: '/' :: _ => true
  | _ => false

/-- A token without one trailing separator `,` (R71 step 3; after the split at commas it changes nothing). -/
def stripSeparator (t : Text) : Text := if t.getLast? = some ',' then t.dropLast else t

/-- A tokenized line: an optional label name and the tokens left (R71). -/
structure TokenLine where
  label : Option Text
  tokens : List Text
deriving DecidableEq, Repr

/-- R71's four steps. -/
def tokenize (line : Text) : TokenLine :=
  let toks := (((splitAtAll isDelimiter line).filter (fun t => !t.isEmpty)).takeWhile
    (fun t => !isComment t)).map stripSeparator
  match toks with
  | [] => ⟨none, []⟩
  | t :: rest => if t.getLast? = some ':' then ⟨some t.dropLast, rest⟩ else ⟨none, t :: rest⟩

/-! ### Names and literals (R72, R78, R79, R84) -/

/-- The fourteen register names (R79, D22). -/
def registerNames : List (Text × RegIdx) :=
  [(['R', '0'], 0), (['R', '1'], 1), (['R', '2'], 2), (['R', '3'], 3), (['R', '4'], 4), (['R', '5'], 5),
   (['R', '6'], 6), (['R', '7'], 7), (['R', '8'], 8), (['R', '9'], 9), (['R', '1', '0'], 10),
   (['R', '1', '1'], 11), (['R', '1', '2'], 12), (['P', 'C'], 13)]

/-- The register a token names (R79). -/
def register? (t : Text) : Option RegIdx := registerNames.lookup t

/-- `R` followed only by decimal digits, one at least (R79, log 21). -/
def registerShaped : Text → Bool
  | 'R' :: d :: ds => (d :: ds).all isDigit
  | _ => false

/-- The twenty mnemonics, upper case only (R56, R78, D23). -/
def mnemonics : List (Text × Opcode) :=
  [(['L', 'D', 'R'], .ldr), (['S', 'T', 'R'], .str), (['A', 'D', 'D'], .add), (['S', 'U', 'B'], .sub),
   (['M', 'O', 'V'], .mov), (['C', 'M', 'P'], .cmp), (['B'], .b), (['B', 'E', 'Q'], .beq),
   (['B', 'N', 'E'], .bne), (['B', 'G', 'T'], .bgt), (['B', 'L', 'T'], .blt), (['A', 'N', 'D'], .and),
   (['O', 'R', 'R'], .orr), (['E', 'O', 'R'], .eor), (['M', 'V', 'N'], .mvn), (['L', 'S', 'L'], .lsl),
   (['L', 'S', 'R'], .lsr), (['H', 'A', 'L', 'T'], .halt), (['I', 'N', 'P'], .inp), (['O', 'U', 'T'], .out)]

/-- The opcode a token is the mnemonic of (R78). -/
def mnemonic? (t : Text) : Option Opcode := mnemonics.lookup t

/-- A label name: an identifier that is neither a register name nor register-shaped (R72, D27). -/
def labelNameOk : Text → Bool
  | [] => false
  | c :: cs =>
    (isLetter c || c == '_') && cs.all (fun x => isLetter x || isDigit x || x == '_')
      && (register? (c :: cs)).isNone && !registerShaped (c :: cs)

/-- The value of a digit of either base. -/
def digitValue (c : Char) : Nat :=
  if isDigit c then c.toNat - 48
  else if decide ('a' ≤ c) && decide (c ≤ 'f') then c.toNat - 87
  else c.toNat - 55

/-- The number a string of digits writes in a base. -/
def digitsValue (base : Nat) (ds : Text) : Nat := ds.foldl (fun n c => n * base + digitValue c) 0

/-- An integer literal's value: decimal, or hexadecimal after `0x` (R84, D24). -/
def literal? (t : Text) : Option Nat :=
  match t with
  | '0' :: 'x' :: ds => if !ds.isEmpty && ds.all isHexDigit then some (digitsValue 16 ds) else none
  | ds => if !ds.isEmpty && ds.all isDigit then some (digitsValue 10 ds) else none

/-- A token without one leading immediate marker `#` (R82). -/
def stripHash : Text → Text
  | '#' :: t => t
  | t => t

/-! ### Errors (R88, R89) -/

/-- The kinds of assembly error, each with its payload (R88). -/
inductive AsmErrorKind where
  /-- A label name that fails R72; the payload is the label token without its terminator (log 22). -/
  | parseError (label : Text)
  | duplicateLabel (name : Text) (firstLine secondLine : Nat)
  | unknownOpcode (token : Text)
  | wrongArity (mnemonic : Opcode) (expected : Shape) (count : Nat)
  | unknownRegister (token : Text)
  | unresolvedOperand (token : Text)
  | operandOutOfRange (token : Text)
deriving DecidableEq, Repr

/-- An error with its context: word address, zero-based line index, trimmed text of the line (R89). -/
structure AsmError where
  kind : AsmErrorKind
  address : Nat
  line : Nat
  text : Text
deriving DecidableEq, Repr

/-! ### Parsing: units and labels (R73 to R77) -/

/-- An assembly unit: a line that holds a word; its place in the list of units is its address (R73). -/
structure AsmUnit where
  line : Nat
  text : Text
  tokens : List Text
deriving DecidableEq, Repr

/-- A label: its name, the address of the unit it names, and the line that defines it (R74, R75). -/
structure Label where
  name : Text
  address : Nat
  line : Nat
deriving DecidableEq, Repr

/-- What parsing has gathered: the units and the label table, in order. -/
structure Parsed where
  units : List AsmUnit
  labels : List Label
deriving DecidableEq, Repr

/-- The label of a name. -/
def findLabel (labels : List Label) (name : Text) : Option Label := labels.find? (fun l => l.name == name)

/-- One line (R72 to R76). A label names the address of the next unit, which is the number of units so far: so
every pending label of R74 gets the address of the next unit appended, or one past the last. -/
def parseLine (k : Nat) (line : Text) (p : Parsed) : Except AsmError Parsed :=
  let tl := tokenize line
  let units := if tl.tokens.isEmpty then p.units else p.units ++ [⟨k, trim line, tl.tokens⟩]
  match tl.label with
  | none => .ok ⟨units, p.labels⟩
  | some name =>
    if labelNameOk name then
      match findLabel p.labels name with
      | some l => .error ⟨.duplicateLabel name l.line k, p.units.length, k, trim line⟩
      | none => .ok ⟨units, p.labels ++ [⟨name, p.units.length, k⟩]⟩
    else .error ⟨.parseError name, p.units.length, k, trim line⟩

/-- All lines in order, the first one's index being `k`; the first error ends it (R73, R90). -/
def parseLines : Nat → List Text → Parsed → Except AsmError Parsed
  | _, [], p => .ok p
  | k, line :: rest, p =>
    match parseLine k line p with
    | .error e => .error e
    | .ok q => parseLines (k + 1) rest q

/-! ### Encoding a unit (R78 to R87) -/

/-- An operand in a register position (R79, R81). -/
def registerField (t : Text) : Except AsmErrorKind (BitVec 4) :=
  match register? t with
  | some i => .ok (BitVec.ofNat 4 i.val)
  | none => .error (.unknownRegister t)

/-- An immediate operand2 of value `v`, for token `t`; never truncated (R85, D25). -/
def immediateField (t : Text) (v : Nat) : Except AsmErrorKind Operand2 :=
  if v ≤ 65535 then .ok (.immediate (BitVec.ofNat 16 v)) else .error (.operandOutOfRange t)

/-- Operand2 resolution on the assembler's side: register, label, literal, in this order (R82). -/
def resolveToken (labels : List Label) (t : Text) : Except AsmErrorKind Operand2 :=
  match register? t with
  | some i => .ok (.direct (BitVec.ofNat 16 i.val))
  | none =>
    if registerShaped t then .error (.unknownRegister t)
    else
      match findLabel labels t with
      | some l => immediateField t l.address
      | none =>
        match literal? (stripHash t) with
        | some v => immediateField t v
        | none => .error (.unresolvedOperand t)

/-- The instruction of an opcode and its operand tokens: arity first, then the operands left to right
(R80, R86, R87). OUT's register goes to rn, INP's to rd (D10). -/
def assembleInstr (labels : List Label) (op : Opcode) (args : List Text) : Except AsmErrorKind Instr :=
  match op.shape, args with
  | .addressOnly, [t1] => do
    let o ← resolveToken labels t1
    return op.instr 0#4 0#4 o
  | .registerAddress, [t1, t2] => do
    let r ← registerField t1
    let o ← resolveToken labels t2
    return if op = .out then op.instr r 0#4 o else op.instr 0#4 r o
  | .registerOperand2, [t1, t2] => do
    let r ← registerField t1
    let o ← resolveToken labels t2
    return op.instr 0#4 r o
  | .registerOperand2NoDestination, [t1, t2] => do
    let r ← registerField t1
    let o ← resolveToken labels t2
    return op.instr r 0#4 o
  | .registerRegisterOperand2, [t1, t2, t3] => do
    let d ← registerField t1
    let n ← registerField t2
    let o ← resolveToken labels t3
    return op.instr n d o
  | .none, [] => return op.instr 0#4 0#4 (.direct 0#16)
  | _, _ => .error (.wrongArity op op.shape args.length)

/-- A unit's word (R78, R92): an instruction, a data word, or an error. -/
def encodeUnit (labels : List Label) : List Text → Except AsmErrorKind Word
  | [] => .error (.unknownOpcode [])
  | t :: args =>
    match mnemonic? t with
    | some op => (assembleInstr labels op args).map encode
    | none =>
      match args, literal? t with
      | [], some v => if v < 4294967296 then .ok (BitVec.ofNat 32 v) else .error (.operandOutOfRange t)
      | _, _ => .error (.unknownOpcode t)

/-- The words of the units from address `a` on; the first error, with its context, ends it (R89, R90). -/
def encodeUnits (labels : List Label) : Nat → List AsmUnit → Except AsmError (List Word)
  | _, [] => .ok []
  | a, u :: rest =>
    match encodeUnit labels u.tokens with
    | .error e => .error ⟨e, a, u.line, u.text⟩
    | .ok w =>
      match encodeUnits labels (a + 1) rest with
      | .error e => .error e
      | .ok ws => .ok (w :: ws)

/-! ### The assembler (R69) -/

/-- A word image, word `i` for memory address `i`, and a source map: entry `a` is the zero-based index of the
line that produced the word at address `a` (R69, R76, log 23). -/
structure Assembly where
  image : List Word
  sourceMap : List Nat
deriving DecidableEq, Repr

/-- `assemble(source_text)`: all or nothing (R69); parsing is over before any unit is encoded (R77, R90). -/
def assemble (text : Text) : Except AsmError Assembly :=
  match parseLines 0 (sourceLines text) ⟨[], []⟩ with
  | .error e => .error e
  | .ok p =>
    match encodeUnits p.labels 0 p.units with
    | .error e => .error e
    | .ok ws => .ok ⟨ws, p.units.map (·.line)⟩

end Sys2Proof.Machine
end

