-- ==== Sys2Proof/Machine/Session.lean ====
section
/-!
DEFINITION. The host's side of the machine: which actions it may take and when, and what a fault leaves behind
(spec/40_step.md R99 to R102, spec/70_reset_and_hazards.md R149 to R151, D15).
-/

namespace Sys2Proof.Machine

/-- How far the host has come in R102's order: construct, `load` once, then `step` (also R151). -/
inductive Phase where
  /-- Constructed; `load` has not been called. -/
  | constructed
  /-- The image is in memory; no step has taken place. -/
  | loaded
  /-- At least one step has completed or faulted. -/
  | running
  /-- `load` refused the image: "the machine is not started" (R46). -/
  | notStarted
deriving DecidableEq, Repr

/-- The phases in which `step` is an action of the host: those after an image was loaded (R46, R102, R151, log 27). -/
def Phase.mayStep : Phase → Bool
  | .loaded | .running => true
  | .constructed | .notStarted => false

/-- A machine and how far its host has gone with it. -/
structure Session where
  core : State
  phase : Phase
deriving DecidableEq, Repr

/-- The actions of R102 that change the machine; observation changes nothing (`State.observe`). -/
inductive HostAction where
  | load (image : List Word)
  | step
  | supplyLine (line : List CodePoint)
deriving DecidableEq, Repr

/-- What the host gets back from an action (R102). -/
inductive HostReply where
  /-- The action took place. -/
  | done
  /-- The step faulted: the fault with its record (R99, R140). -/
  | faulted (f : Fault)
  /-- No step exists: INP waits for a line, and the machine is as it was (R94, R126). -/
  | waiting
  /-- `load` refused the image (R46). -/
  | loadRefused (r : LoadRefusal)
  /-- Not an action the host may take now: a second `load`, accepted or refused the first; a `step` on a machine that
  holds no image, or that has a fault record (R46, R102, R151). -/
  | notAdmitted
deriving DecidableEq, Repr

/-- `construct` (R102). -/
def Session.construct (p : Params) : Session := ⟨State.construct p, .constructed⟩

/-- One host action: the session after it, and the reply. `load` is called once, whatever it answers (D15); `step`
comes after a `load` that was not refused. DEDUCED (log 27): that `step` is not admitted before `load` or after a
refused one follows from R102's "in this order", R151's "in order" and R46's "the machine is not started", though
R102's table asks of `step` only that no fault is recorded. A line may be supplied in every phase. -/
def Session.act (x : Session) : HostAction → Session × HostReply
  | .load image =>
    if x.phase = .constructed then
      match x.core.load image with
      | .ok s => (⟨s, .loaded⟩, .done)
      | .error r => ({ x with phase := .notStarted }, .loadRefused r)
    else (x, .notAdmitted)
  | .step =>
    if x.phase.mayStep then
      match Sys2Proof.Machine.step x.core with
      | .next s => (⟨s, .running⟩, .done)
      | .fault f => (⟨x.core.afterFault f, .running⟩, .faulted f)
      | .refused .runOver => (x, .notAdmitted)
      | .refused _ => (x, .waiting)
    else (x, .notAdmitted)
  | .supplyLine line => ({ x with core := x.core.supplyLine line }, .done)

/-- A sequence of host actions, and the replies in order. -/
def Session.run : Session → List HostAction → Session × List HostReply
  | x, [] => (x, [])
  | x, a :: rest =>
    let (y, r) := x.act a
    let (z, rs) := Session.run y rest
    (z, r :: rs)

end Sys2Proof.Machine
end

