-- ==== Sys2Proof/Safety.lean ====
section
/-!
DEFINITION. What claims about runs are stated in: the invariant of a reachable state, and the fault priority
of spec/60_exceptions.md R139 as a list, written apart from `step`.
-/

namespace Sys2Proof.Machine

/-- `cmp`'s range (R24). -/
abbrev cmpInRange (c : Int) : Prop := -4294967295 ≤ c ∧ c ≤ 4294967295

/-- Every listed memory address exists: it is below `MEM_WORDS` (R36). -/
def Mem.inBounds (m : Mem) (memWords : Nat) : Bool := m.all (fun c => decide (c.1 < memWords))

/-- The invariant of the machine: memory canonical and within `MEM_WORDS`, `cmp` in its range, the
parameters in theirs (R5, R24, R36). -/
abbrev State.Inv (s : State) : Prop :=
  s.mem.wf = true ∧ s.mem.inBounds s.params.memWords = true ∧ cmpInRange s.cmp ∧ s.params.wf

/-- A run has ended: normally by HALT, or abnormally by a fault (R101). -/
abbrev State.ended (s : State) : Prop := s.halted = true ∨ s.fault.isSome = true

/-- One line of R139's list: when the line's fault applies, and the fault. -/
structure FaultLine where
  applies : Bool
  fault : Fault
deriving DecidableEq, Repr

/-- The word a step begun at `s` works on; lines of R139 after the second are reached only when it exists. -/
def State.fetchedWord (s : State) : Word := s.mem.read s.pc.toNat

/-- The fields of that word (R54). -/
def State.fetchedFields (s : State) : Fields := unpack s.fetchedWord

/-- The value of a register of a step begun at `s`, in its execute part: index 13 reads `pc0 + 1` (R19, R23). -/
def State.stepReg (s : State) (n : Nat) : Word :=
  if n = 13 then s.pc + 1#32 else (s.regs.toList[n]?).getD 0#32

/-- The resolved operand of a step begun at `s`, where its word is legal and the index exists (R60, R61). -/
def State.stepOp2 (s : State) : Word :=
  if s.fetchedFields.mode = 0#3 then s.stepReg s.fetchedFields.operand2.toNat
  else BitVec.ofNat 32 s.fetchedFields.operand2.toNat

/-- R139's list for a step begun at `s`, in its order: HaltedStep; OutOfRangeAddress(fetch); IllegalOpcode;
IllegalMode; OutOfRangeAddress of operand2, rn, rd, data; UnsupportedDevice; UnrepresentableCharacter. -/
def State.faultLines (s : State) : List FaultLine :=
  let f := s.fetchedFields
  let op := Opcode.ofCode f.opcode
  let uses (p : Opcode → Bool) : Bool := (op.map p).getD false
  let v := s.stepReg f.rn.toNat
  [ ⟨s.halted, .haltedStep s.pc⟩,
    ⟨s.params.memWords ≤ s.pc.toNat, .outOfRangeAddress .fetch s.pc.toNat s.pc⟩,
    ⟨20 ≤ f.opcode.toNat, .illegalOpcode f.opcode s.pc⟩,
    ⟨2 ≤ f.mode.toNat, .illegalMode f.mode s.pc⟩,
    ⟨f.mode.toNat = 0 && 14 ≤ f.operand2.toNat, .outOfRangeAddress .operand2 f.operand2.toNat s.pc⟩,
    ⟨uses Opcode.usesRn && 14 ≤ f.rn.toNat, .outOfRangeAddress .rn f.rn.toNat s.pc⟩,
    ⟨uses Opcode.usesRd && 14 ≤ f.rd.toNat, .outOfRangeAddress .rd f.rd.toNat s.pc⟩,
    ⟨(op = some .ldr || op = some .str) && s.params.memWords ≤ s.stepOp2.toNat,
      .outOfRangeAddress .data s.stepOp2.toNat s.pc⟩,
    ⟨op = some .out && s.stepOp2 ≠ s.params.devDec && s.stepOp2 ≠ s.params.devChr,
      .unsupportedDevice s.stepOp2 s.pc⟩,
    ⟨op = some .out && s.stepOp2 ≠ s.params.devDec && s.stepOp2 = s.params.devChr && Config.charMax < v.toNat,
      .unrepresentableCharacter v s.pc⟩ ]

/-- The fault of a step begun at `s`: the first line that applies (R139). -/
def State.firstFault (s : State) : Option Fault := (s.faultLines.find? (·.applies)).map (·.fault)

/-- A step begun at `s` would execute INP with no line waiting (R94, R126). -/
def State.awaitsInput (s : State) : Bool :=
  decide (Opcode.ofCode s.fetchedFields.opcode = some .inp) && s.input.isEmpty

end Sys2Proof.Machine
end

