-- ==== Sys2Proof/Certificates/Slice0/Obligations.lean ====
section
/-!
DEFINITION. The statements for the provers, and the few predicates they are written in. A statement that rests on a
decision of spec/92_eei_decisions.md (D<n>), or on a choice of the model, says so in its docstring.
-/

namespace Sys2Proof.Claims

open Sys2Proof.Machine

/-- What an execute arm reads from register `i` in a step begun at `s`: index 13 reads `pc0 + 1`, any other index its
value before the step (R19, R23). -/
def xreg (s : State) (i : RegIdx) : Word := if i = pcIdx then s.pc + 1#32 else s.reg i

/-- `s` with nothing changed but the pc, which is `pc0 + 1` (R19, R22). -/
def moved (s : State) : State := { s with regs := s.regs.set pcIdx (s.pc + 1#32) }

/-- `s` with nothing changed but the pc, which is `pc0 + 1`, and then register `d`, which is `v` (R19). -/
def wrote (s : State) (d : RegIdx) (v : Word) : State :=
  { s with regs := (s.regs.set pcIdx (s.pc + 1#32)).set d v }

/-- The operand's value `op2` in a step begun at `s`: the 16 bits zero-extended, or the content of the register they
name (R60, R61). -/
def OperandIs (s : State) (o : Operand2) (v : Word) : Prop :=
  (∃ x : BitVec 16, o = .immediate x ∧ v.toNat = x.toNat) ∨
  (∃ (x : BitVec 16) (i : RegIdx), o = .direct x ∧ x.toNat = i.val ∧ v = xreg s i)

/-- The words `w` with `w & 0xF8060000 = pattern` are exactly those that decode to the instruction `mk`, with rn from
bits 26-23, rd from bits 22-19, the mode from bit 16 and operand2 from bits 15-0 (R53, R56, R59). -/
def EncodedAs (pattern : Word) (mk : BitVec 4 → BitVec 4 → Operand2 → Instr) : Prop :=
  (∀ w : Word, w &&& 0xF8060000#32 = pattern →
    decode w = .ok (mk (w.extractLsb' 23 4) (w.extractLsb' 19 4)
      (if w.getLsbD 16 = true then .immediate (w.extractLsb' 0 16) else .direct (w.extractLsb' 0 16)))) ∧
  (∀ (w : Word) (rn rd : BitVec 4) (o : Operand2), decode w = .ok (mk rn rd o) → w &&& 0xF8060000#32 = pattern)

/-- The faults of an instruction's register fields, in their order: a direct operand2 of 14 or more, then rn if the
opcode uses it, then rd if the opcode uses it (R132, R139). -/
def FieldFaults (mk : BitVec 4 → BitVec 4 → Operand2 → Instr) (usesRn usesRd : Bool) : Prop :=
  ∀ (s : State) (rn rd : BitVec 4) (o : Operand2),
    (∀ x : BitVec 16, o = .direct x → 14 ≤ x.toNat →
      exec (mk rn rd o) s = .fault (.outOfRangeAddress .operand2 x.toNat s.pc)) ∧
    (o.inRange = true → usesRn = true → 14 ≤ rn.toNat →
      exec (mk rn rd o) s = .fault (.outOfRangeAddress .rn rn.toNat s.pc)) ∧
    (o.inRange = true → (usesRn = true → rn.toNat < 14) → usesRd = true → 14 ≤ rd.toNat →
      exec (mk rn rd o) s = .fault (.outOfRangeAddress .rd rd.toNat s.pc))

/-- An instruction that writes `x[rd] <- f(x[rn], op2)` modulo `2^32` and changes nothing else but the pc. -/
def WritesFromRnAndOp2 (mk : BitVec 4 → BitVec 4 → Operand2 → Instr) (f : Nat → Nat → Nat) : Prop :=
  ∀ (s : State) (rn rd : BitVec 4) (o : Operand2) (b : Word) (n d : RegIdx),
    OperandIs s o b → rn.toNat = n.val → rd.toNat = d.val →
      exec (mk rn rd o) s = .next (wrote s d (BitVec.ofNat 32 (f (xreg s n).toNat b.toNat % 4294967296)))

/-- An instruction that writes `x[rd] <- f(op2)` modulo `2^32` and changes nothing else but the pc. -/
def WritesFromOp2 (mk : BitVec 4 → BitVec 4 → Operand2 → Instr) (f : Nat → Nat) : Prop :=
  ∀ (s : State) (rn rd : BitVec 4) (o : Operand2) (b : Word) (d : RegIdx),
    OperandIs s o b → rd.toNat = d.val →
      exec (mk rn rd o) s = .next (wrote s d (BitVec.ofNat 32 (f b.toNat % 4294967296)))

/-- A branch: `pc <- op2` exactly when the condition holds of `cmp`, else the pc is `pc0 + 1`; nothing else changes. -/
def BranchesWhen (mk : BitVec 4 → BitVec 4 → Operand2 → Instr) (taken : Int → Prop) : Prop :=
  ∀ (s : State) (rn rd : BitVec 4) (o : Operand2) (a : Word), OperandIs s o a →
    (taken s.cmp → exec (mk rn rd o) s = .next (wrote s pcIdx a)) ∧
    (¬ taken s.cmp → exec (mk rn rd o) s = .next (moved s))

/-- The operand counts of R80's table. -/
def operandCount : Opcode → Nat
  | .b | .beq | .bne | .bgt | .blt => 1
  | .ldr | .str | .inp | .out | .mov | .mvn | .cmp => 2
  | .add | .sub | .and | .orr | .eor | .lsl | .lsr => 3
  | .halt => 0

/-- The line holds a word: its token list is not empty (R73). -/
def isUnitLine (line : Text) : Bool := !(tokenize line).tokens.isEmpty

end Sys2Proof.Claims

open Sys2Proof Sys2Proof.Machine Sys2Proof.Claims

/-! ### Decoding and encoding -/

/-- R54: each field is its bits of the word, as a number. -/
def Obligations.UnpackExtractsTheFieldBits : Prop :=
  ∀ w : Word,
    (unpack w).opcode.toNat = w.toNat / 134217728 ∧
    (unpack w).rn.toNat = w.toNat / 8388608 % 16 ∧
    (unpack w).rd.toNat = w.toNat / 524288 % 16 ∧
    (unpack w).mode.toNat = w.toNat / 65536 % 8 ∧
    (unpack w).operand2.toNat = w.toNat % 65536

/-- R55: packing is the arithmetic formula, and packing and extraction undo each other. (The second direction is the
spec's own inference: "the second follows because the fields of rule R53 partition the 32 bits".) -/
def Obligations.PackAndUnpackAreInverse : Prop :=
  (∀ f : Fields, (pack f).toNat =
    f.opcode.toNat * 134217728 + f.rn.toNat * 8388608 + f.rd.toNat * 524288 + f.mode.toNat * 65536 +
      f.operand2.toNat) ∧
  (∀ f : Fields, unpack (pack f) = f) ∧ (∀ w : Word, pack (unpack w) = w)

/-- R55: every instruction, with every value of every field, used or not, decodes back from its word. -/
def Obligations.DecodeOfEncodeIsTheInstruction : Prop := ∀ i : Instr, decode (encode i) = .ok i

/-- R55 (the direction the spec derives): a legal word is the word of the instruction it decodes to; no bit is lost. -/
def Obligations.EncodeOfDecodeIsTheWord : Prop := ∀ (w : Word) (i : Instr), decode w = .ok i → encode i = w

/-- R67's three classes, and the information each fault records (the fault names and the fault on a mode of 2 to 7 are
the spec's decisions D5 and D18). -/
def Obligations.EveryWordFallsIntoOneClass : Prop :=
  ∀ w : Word,
    (20 ≤ w.toNat / 134217728 → decode w = .error (.illegalOpcode (w.extractLsb' 27 5))) ∧
    (w.toNat / 134217728 < 20 → 2 ≤ w.toNat / 65536 % 8 →
      decode w = .error (.illegalMode (w.extractLsb' 16 3))) ∧
    (w.toNat / 134217728 < 20 → w.toNat / 65536 % 8 < 2 →
      ∃ i, decode w = .ok i ∧ i.opcode.code.toNat = w.toNat / 134217728)

/-- A few words of spec/95_test_vectors.md decode as they are listed there. -/
def Obligations.ListedWordsDecode : Prop :=
  decode 0x0011000A#32 = .ok (.ldr 0 2 (.immediate 10)) ∧
  decode 0x16E10001#32 = .ok (.add 13 12 (.immediate 1)) ∧
  decode 0x2068000C#32 = .ok (.mov 0 13 (.direct 12)) ∧
  decode 0x28010007#32 = .ok (.cmp 0 0 (.immediate 7)) ∧
  decode 0x30790005#32 = .ok (.b 0 15 (.immediate 5)) ∧
  decode 0x9FF9FFFF#32 = .ok (.out 15 15 (.immediate 0xFFFF)) ∧
  decode 0x5FFFFFFF#32 = .error (.illegalMode 7) ∧
  decode 0xFFFFFFFF#32 = .error (.illegalOpcode 31)

/-- R66 (decision D7): a field the opcode does not use has no influence on what the instruction does. -/
def Obligations.UnusedFieldsAreIgnored : Prop :=
  ∀ (op : Opcode) (rn rn' rd rd' : BitVec 4) (o : Operand2) (s : State),
    (op.usesRn = true → rn = rn') → (op.usesRd = true → rd = rd') →
      exec (op.instr rn rd o) s = exec (op.instr rn' rd' o) s

/-! ### Operand2 -/

/-- R60: in direct mode the value is the named register's, `pc0 + 1` for index 13; all 16 bits are the index, and an
index of 14 or more is the fault OutOfRangeAddress(operand2) of the instruction. (HALT and INP, which do not use the
operand, are resolved all the same by decision D6: HaltSetsHaltedOnly and InpTakesOneLineOrWaits state it of them.) -/
def Obligations.DirectModeReadsTheNamedRegister : Prop :=
  (∀ (s : State) (x : BitVec 16) (i : RegIdx), x.toNat = i.val →
    resolve s.portS (.direct x) = some (xreg s i)) ∧
  (∀ (op : Opcode) (rn rd : BitVec 4) (x : BitVec 16) (s : State), op ≠ .halt → op ≠ .inp → 14 ≤ x.toNat →
    exec (op.instr rn rd (.direct x)) s = .fault (.outOfRangeAddress .operand2 x.toNat s.pc))

/-- R61, with the width of decision D1: in immediate mode the value is operand2 zero-extended. -/
def Obligations.ImmediateModeZeroExtends : Prop :=
  ∀ (s : State) (x : BitVec 16), ∃ v, resolve s.portS (.immediate x) = some v ∧ v.toNat = x.toNat

/-! ### Loads and stores -/

/-- R104. -/
def Obligations.LdrLoadsTheAddressedWord : Prop :=
  EncodedAs 0x00000000#32 .ldr ∧ FieldFaults .ldr false true ∧
  ∀ (s : State) (rn rd : BitVec 4) (o : Operand2) (a : Word) (d : RegIdx),
    OperandIs s o a → rd.toNat = d.val →
      (a.toNat < s.params.memWords → exec (.ldr rn rd o) s = .next (wrote s d (s.mem.read a.toNat))) ∧
      (s.params.memWords ≤ a.toNat →
        exec (.ldr rn rd o) s = .fault (.outOfRangeAddress .data a.toNat s.pc))

/-- R105. The word at the address `op2` becomes the register, every other word reads as before, and nothing else
changes but the pc. -/
def Obligations.StrStoresTheRegister : Prop :=
  EncodedAs 0x08000000#32 .str ∧ FieldFaults .str false true ∧
  ∀ (s : State) (rn rd : BitVec 4) (o : Operand2) (a : Word) (d : RegIdx),
    OperandIs s o a → rd.toNat = d.val →
      (s.mem.wf = true → a.toNat < s.params.memWords →
        ∃ m : Mem, exec (.str rn rd o) s = .next { moved s with mem := m } ∧ m.wf = true ∧
          ∀ b, m.read b = if b = a.toNat then xreg s d else s.mem.read b) ∧
      (s.params.memWords ≤ a.toNat →
        exec (.str rn rd o) s = .fault (.outOfRangeAddress .data a.toNat s.pc))

/-- The source's round trip (spec/95_test_vectors.md E4): a word stored is the word a load of the same address gives. -/
def Obligations.StoreThenLoadReturnsTheValue : Prop :=
  ∀ (s : State) (rn rd rn' rd' : BitVec 4) (o : Operand2) (x : BitVec 16) (d d' : RegIdx),
    s.mem.wf = true → OperandIs s o (BitVec.ofNat 32 x.toNat) → x.toNat < s.params.memWords →
    rd.toNat = d.val → rd'.toNat = d'.val →
      ∃ t u, exec (.str rn rd o) s = .next t ∧ exec (.ldr rn' rd' (.immediate x)) t = .next u ∧
        u.reg d' = xreg s d

/-- R50 (the spec derives it from R37 and R47): an STR over the next instruction's word changes what the next step
executes. -/
def Obligations.StoredWordIsExecutedByTheNextStep : Prop :=
  ∀ (s : State) (rn rd : BitVec 4) (o : Operand2) (d : RegIdx) (j : Instr),
    s.fault = none → s.halted = false → s.mem.wf = true → s.pc.toNat < s.params.memWords →
    decode (s.mem.read s.pc.toNat) = .ok (.str rn rd o) → OperandIs s o (s.pc + 1#32) →
    (s.pc + 1#32).toNat < s.params.memWords → rd.toNat = d.val → decode (xreg s d) = .ok j →
      ∃ t, step s = .next t ∧ t.pc = s.pc + 1#32 ∧ step t = exec j t

/-- R39: MemRead and MemWrite exist below MEM_WORDS only; a read gives the latest write to its address. -/
def Obligations.MemoryReadGivesTheLatestWrite : Prop :=
  ∀ (s : State) (a : Nat) (v : Word),
    (s.params.memWords ≤ a → s.memRead a = none ∧ s.memWrite a v = none) ∧
    (a < s.params.memWords → s.memRead a = some (s.mem.read a)) ∧
    (a < s.params.memWords → s.mem.wf = true →
      ∃ m : Mem, s.memWrite a v = some { s with mem := m } ∧ m.wf = true ∧ m.read a = v ∧
        ∀ b, b ≠ a → m.read b = s.mem.read b)

/-- R38: only fetch, LDR and STR reach memory. No other instruction changes it or depends on it; STR changes the word
at `op2` only; LDR depends on the word at `op2` only; fetch depends on the word at `pc0` only. -/
def Obligations.OnlyFetchLdrAndStrReachMemory : Prop :=
  (∀ (i : Instr) (s t : State), exec i s = .next t →
    (i.opcode ≠ .str → t.mem = s.mem) ∧
    (i.opcode = .str → s.mem.wf = true → ∀ a, OperandIs s i.op2 a →
      ∀ b, b ≠ a.toNat → t.mem.read b = s.mem.read b) ∧
    (i.opcode ≠ .ldr → i.opcode ≠ .str → ∀ m : Mem, exec i { s with mem := m } = .next { t with mem := m }) ∧
    (i.opcode = .ldr → ∀ (m : Mem) (a : Word), OperandIs s i.op2 a → m.read a.toNat = s.mem.read a.toNat →
      exec i { s with mem := m } = .next { t with mem := m }) ∧
    (i.opcode = .str → ∀ m : Mem, ∃ u, exec i { s with mem := m } = .next u ∧ { u with mem := t.mem } = t)) ∧
  (∀ (s : State) (m : Mem), m.read s.pc.toNat = s.mem.read s.pc.toNat →
    fetchInstr { s with mem := m } = fetchInstr s)

/-! ### ALU -/

/-- R108, R110, R111, R113: ADD, MOV, AND and EOR. -/
def Obligations.AddMovAndEorWriteTheirResults : Prop :=
  (EncodedAs 0x10000000#32 .add ∧ FieldFaults .add true true ∧ WritesFromRnAndOp2 .add (fun a b => a + b)) ∧
  (EncodedAs 0x20000000#32 .mov ∧ FieldFaults .mov false true ∧ WritesFromOp2 .mov (fun b => b)) ∧
  (EncodedAs 0x58000000#32 .and ∧ FieldFaults .and true true ∧ WritesFromRnAndOp2 .and (fun a b => a &&& b)) ∧
  (EncodedAs 0x68000000#32 .eor ∧ FieldFaults .eor true true ∧ WritesFromRnAndOp2 .eor (fun a b => a ^^^ b))

/-- R109, R112, R114, R115, R116, each with a decision of the spec in it: SUB leaves `cmp` alone (D4), ORR is the
bitwise OR (D2), MVN complements 32 bits (D9), a shift by 32 or more gives 0 (D8). -/
def Obligations.SubOrrMvnAndShiftsWriteTheirResults : Prop :=
  (EncodedAs 0x18000000#32 .sub ∧ FieldFaults .sub true true ∧
    WritesFromRnAndOp2 .sub (fun a b => a + 4294967296 - b)) ∧
  (EncodedAs 0x60000000#32 .orr ∧ FieldFaults .orr true true ∧ WritesFromRnAndOp2 .orr (fun a b => a ||| b)) ∧
  (EncodedAs 0x70000000#32 .mvn ∧ FieldFaults .mvn false true ∧ WritesFromOp2 .mvn (fun b => 4294967295 - b)) ∧
  (EncodedAs 0x78000000#32 .lsl ∧ FieldFaults .lsl true true ∧
    WritesFromRnAndOp2 .lsl (fun a b => if 32 ≤ b then 0 else a * 2 ^ b)) ∧
  (EncodedAs 0x80000000#32 .lsr ∧ FieldFaults .lsr true true ∧
    WritesFromRnAndOp2 .lsr (fun a b => if 32 ≤ b then 0 else a / 2 ^ b))

/-! ### Compare and branch -/

/-- R118, with the range of decision D3: CMP writes the exact integer difference to `cmp` and changes nothing else but
the pc. -/
def Obligations.CmpSetsTheExactDifference : Prop :=
  EncodedAs 0x28000000#32 .cmp ∧ FieldFaults .cmp true false ∧
  ∀ (s : State) (rn rd : BitVec 4) (o : Operand2) (b : Word) (n : RegIdx),
    OperandIs s o b → rn.toNat = n.val →
      exec (.cmp rn rd o) s = .next { moved s with cmp := ((xreg s n).toNat : Int) - (b.toNat : Int) }

/-- R119 to R123: the five branches. -/
def Obligations.BranchesGoToOp2ExactlyWhenTaken : Prop :=
  (EncodedAs 0x30000000#32 .b ∧ FieldFaults .b false false ∧ BranchesWhen .b (fun _ => True)) ∧
  (EncodedAs 0x38000000#32 .beq ∧ FieldFaults .beq false false ∧ BranchesWhen .beq (fun c => c = 0)) ∧
  (EncodedAs 0x40000000#32 .bne ∧ FieldFaults .bne false false ∧ BranchesWhen .bne (fun c => c ≠ 0)) ∧
  (EncodedAs 0x48000000#32 .bgt ∧ FieldFaults .bgt false false ∧ BranchesWhen .bgt (fun c => c > 0)) ∧
  (EncodedAs 0x50000000#32 .blt ∧ FieldFaults .blt false false ∧ BranchesWhen .blt (fun c => c < 0))

/-- The corner cases of R122 and R123 (with D3): after `CMP Rn, op2` the four conditional branches compare the two
values as unsigned numbers. -/
def Obligations.BranchAfterCmpComparesUnsigned : Prop :=
  ∀ (s : State) (rn rd r1 r2 : BitVec 4) (o : Operand2) (b : Word) (n : RegIdx) (x : BitVec 16),
    OperandIs s o b → rn.toNat = n.val →
      ∃ t, exec (.cmp rn rd o) s = .next t ∧
        exec (.beq r1 r2 (.immediate x)) t =
          .next (if (xreg s n).toNat = b.toNat then wrote t pcIdx (x.zeroExtend 32) else moved t) ∧
        exec (.bne r1 r2 (.immediate x)) t =
          .next (if (xreg s n).toNat ≠ b.toNat then wrote t pcIdx (x.zeroExtend 32) else moved t) ∧
        exec (.bgt r1 r2 (.immediate x)) t =
          .next (if b.toNat < (xreg s n).toNat then wrote t pcIdx (x.zeroExtend 32) else moved t) ∧
        exec (.blt r1 r2 (.immediate x)) t =
          .next (if (xreg s n).toNat < b.toNat then wrote t pcIdx (x.zeroExtend 32) else moved t)

/-- R25 (decision D4): only CMP writes `cmp`, and only BEQ, BNE, BGT and BLT read it: every other instruction does the
same whatever `cmp` holds. -/
def Obligations.OnlyCmpWritesCmpOnlyBranchesReadIt : Prop :=
  (∀ (i : Instr) (s t : State), exec i s = .next t → i.opcode ≠ .cmp → t.cmp = s.cmp) ∧
  (∀ (i : Instr) (s : State) (c : Int),
    i.opcode ≠ .beq → i.opcode ≠ .bne → i.opcode ≠ .bgt → i.opcode ≠ .blt →
      (∀ t, exec i s = .next t →
        exec i { s with cmp := c } = .next { t with cmp := if i.opcode = .cmp then t.cmp else c }) ∧
      (∀ f, exec i s = .fault f → exec i { s with cmp := c } = .fault f) ∧
      (∀ r, exec i s = .refused r → exec i { s with cmp := c } = .refused r))

/-! ### System and I/O -/

/-- R125, with decisions D6 (its operand is resolved), D20 (a step after it is the fault HaltedStep) and D36 (the
assembler's HALT is 0x88000000): HALT sets `halted` and changes nothing else but the pc. -/
def Obligations.HaltSetsHaltedOnly : Prop :=
  EncodedAs 0x88000000#32 .halt ∧ FieldFaults .halt false false ∧
  (∀ labels : List Label, encodeUnit labels [['H', 'A', 'L', 'T']] = .ok 0x88000000#32) ∧
  ∀ (s : State) (rn rd : BitVec 4) (o : Operand2) (v : Word), OperandIs s o v →
    exec (.halt rn rd o) s = .next { moved s with halted := true } ∧
    (s.fault = none →
      step { moved s with halted := true } = .fault (.haltedStep (s.pc + 1#32)))

/-- R27: only HALT sets `halted`, nothing clears it but a new construction, a step begun while it is set is HaltedStep,
and the host reads it at any time. -/
def Obligations.HaltedIsSetByHaltAndNeverCleared : Prop :=
  (∀ (i : Instr) (s t : State), exec i s = .next t →
    t.halted = (s.halted || decide (i.opcode = .halt))) ∧
  (∀ (x : Session) (acts : List HostAction), x.core.halted = true → (x.run acts).1.core.halted = true) ∧
  (∀ s : State, s.fault = none → s.halted = true → step s = .fault (.haltedStep s.pc)) ∧
  (∀ s : State, s.observe.halted = s.halted)

/-- R126 (the input channel is decision D13): INP takes the first line of the channel and changes nothing else but the
pc, whatever the line holds and whatever rd is; while the channel is empty there is no step. -/
def Obligations.InpTakesOneLineOrWaits : Prop :=
  EncodedAs 0x90000000#32 .inp ∧ FieldFaults .inp false false ∧
  ∀ (s : State) (rn rd : BitVec 4) (o : Operand2) (v : Word), OperandIs s o v →
    (∀ line rest, s.input = line :: rest →
      exec (.inp rn rd o) s = .next { moved s with input := rest }) ∧
    (s.input = [] → exec (.inp rn rd o) s = .refused .awaitingInput)

/-- R128 (the selectors are D11's open parameters, the field D10, the renderings D12): OUT appends the rendering of
`x[rn]` that `op2` selects and changes nothing else but the pc. -/
def Obligations.OutAppendsTheSelectedRendering : Prop :=
  EncodedAs 0x98000000#32 .out ∧ FieldFaults .out true false ∧
  ∀ (s : State) (rn rd : BitVec 4) (o : Operand2) (sel : Word) (n : RegIdx),
    OperandIs s o sel → rn.toNat = n.val →
      (sel = s.params.devDec →
        exec (.out rn rd o) s = .next { moved s with output := s.output ++ decText (xreg s n) }) ∧
      (sel ≠ s.params.devDec → sel = s.params.devChr → ∀ c : CodePoint, c.val = (xreg s n).toNat →
        exec (.out rn rd o) s = .next { moved s with output := s.output ++ [c] }) ∧
      (sel ≠ s.params.devDec → sel = s.params.devChr → 0x10FFFF < (xreg s n).toNat →
        exec (.out rn rd o) s = .fault (.unrepresentableCharacter (xreg s n) s.pc)) ∧
      (sel ≠ s.params.devDec → sel ≠ s.params.devChr →
        exec (.out rn rd o) s = .fault (.unsupportedDevice sel s.pc))

/-- R127 (decision D12): the decimal rendering is one to ten decimal digits whose value read back is `v`, and none
begins with `0` but the one character `0`. -/
def Obligations.DecimalRenderingReadsBack : Prop :=
  ∀ v : Word,
    1 ≤ (decText v).length ∧ (decText v).length ≤ 10 ∧
    (∀ c ∈ decText v, 48 ≤ c.val ∧ c.val ≤ 57) ∧
    (decText v).foldl (fun k c => 10 * k + (c.val - 48)) 0 = v.toNat ∧
    ((decText v).head? = some 48 → decText v = [48])

/-- R29 (a character's range is decision D12): the output stream only grows, only OUT makes it grow, and no step
depends on what it holds. -/
def Obligations.OutputOnlyGrowsAndIsNeverRead : Prop :=
  (∀ s t : State, step s = .next t →
    ∃ e, t.output = s.output ++ e ∧
      (e ≠ [] → Opcode.ofCode s.fetchedFields.opcode = some .out) ∧
      ∀ o, step { s with output := o } = .next { t with output := o ++ e }) ∧
  (∀ (s : State) (o : List CodePoint) (f : Fault), step s = .fault f → step { s with output := o } = .fault f) ∧
  (∀ (s : State) (o : List CodePoint) (r : Refusal), step s = .refused r → step { s with output := o } = .refused r)

/-! ### The step, the faults, the invariant -/

/-- R95: a machine with no fault record that is not halted, whose word at the pc exists and decodes to `i`, steps as
`exec i` does, with nothing around it (`exec` moves the pc itself). -/
def Obligations.StepRunsTheDecodedInstruction : Prop :=
  ∀ (s : State) (i : Instr), s.fault = none → s.halted = false → s.pc.toNat < s.params.memWords →
    decode (s.mem.read s.pc.toNat) = .ok i → step s = exec i s

/-- The word `withFetchWord` places is the one the very next step runs (log 8). -/
def Obligations.PlacedWordIsTheNextInstruction : Prop :=
  ∀ (s : State) (nbits w : Nat) (i : Instr), s.fault = none → s.halted = false → s.mem.wf = true →
    s.pc.toNat < s.params.memWords → decodeTableWord nbits w = some i →
      step (s.withFetchWord nbits w) = exec i (s.withFetchWord nbits w) ∧
      ∀ a, a ≠ s.pc.toNat → (s.withFetchWord nbits w).mem.read a = s.mem.read a

/-- R139 (decision D19): a step faults exactly when no fault is recorded and some line of R139's list applies, and then
with the first that does. -/
def Obligations.StepFaultsWithTheFirstThatApplies : Prop :=
  ∀ (s : State) (f : Fault), step s = .fault f ↔ s.fault = none ∧ s.firstFault = some f

/-- R94, with R95's first line and the wait of decision D13: when a step has a successor, when it waits, when it does not
exist because the run is over; there is no other refusal. -/
def Obligations.StepExistsUnlessItFaultsOrWaits : Prop :=
  ∀ s : State,
    ((∃ t, step s = .next t) ↔ s.fault = none ∧ s.firstFault = none ∧ s.awaitsInput = false) ∧
    (step s = .refused .awaitingInput ↔ s.fault = none ∧ s.firstFault = none ∧ s.awaitsInput = true) ∧
    (step s = .refused .runOver ↔ s.fault ≠ none) ∧
    (∀ r, step s = .refused r → r = .awaitingInput ∨ r = .runOver)

/-- The control signals of R64 (their names are decision D31) bound what an instruction changes: every register,
memory word, flag and stream they do not name is as before. Where `mem_we` is set, in a canonical memory, the one word
that may change is the word at `op2`. -/
def Obligations.ControlSignalsBoundTheEffects : Prop :=
  ∀ (i : Instr) (s t : State), exec i s = .next t →
    (∀ r : RegIdx, r ≠ pcIdx → (i.opcode.controls.rdWe = true → i.rd.toNat ≠ r.val) → t.reg r = s.reg r) ∧
    (i.opcode.controls.brCond = .never → (i.opcode.controls.rdWe = true → i.rd.toNat ≠ 13) →
      t.pc = s.pc + 1#32) ∧
    (i.opcode.controls.memWe = false → t.mem = s.mem) ∧
    (i.opcode.controls.memWe = true → s.mem.wf = true → ∀ a, OperandIs s i.op2 a →
      ∀ b, b ≠ a.toNat → t.mem.read b = s.mem.read b) ∧
    (i.opcode.controls.cmpWe = false → t.cmp = s.cmp) ∧
    (i.opcode.controls.sys ≠ some .halt → t.halted = s.halted) ∧
    (i.opcode.controls.sys ≠ some .inp → t.input = s.input) ∧
    (i.opcode.controls.sys ≠ some .out → t.output = s.output) ∧
    t.fault = s.fault ∧ t.params = s.params ∧ t.draws = s.draws

/-- The invariant (memory canonical and within MEM_WORDS, `cmp` and the parameters in their ranges) holds after
construction with any legal parameters, and at reset. The reset values are decision D14 of the spec. -/
def Obligations.InvariantHoldsAfterConstruction : Prop :=
  (∀ p : Params, p.wf → (State.construct p).Inv) ∧ State.reset.Inv

/-- Every step keeps the invariant (R5, R24, R36), in every state that has it. -/
def Obligations.EveryStepKeepsTheInvariant : Prop :=
  ∀ s t : State, s.Inv → Sys2Proof.Machine.step s = .next t → t.Inv

/-- Whatever the host does, from construction with legal parameters on, the invariant holds, the parameters stay as
constructed (R32), and a fault is recorded, or `halted` set, only where the host has stepped the machine (R102,
decision D15). -/
def Obligations.EverySessionKeepsTheInvariant : Prop :=
  ∀ (p : Params) (acts : List HostAction), p.wf →
    ((Session.construct p).run acts).1.core.Inv ∧
    ((Session.construct p).run acts).1.core.params = p ∧
    (((Session.construct p).run acts).1.core.fault.isSome = true →
      ((Session.construct p).run acts).1.phase = .running) ∧
    (((Session.construct p).run acts).1.core.halted = true →
      ((Session.construct p).run acts).1.phase = .running)

/-- R46, R102, R151 (decision D15; that `step` waits for an accepted `load` is the model's reading, log 27): the host's
actions come in order. `load` is admitted once, on a constructed machine; before it, and after one that was refused,
no step takes place and nothing but input lines changes; after one that was accepted, a host's step is the step. -/
def Obligations.HostActionsAreAdmittedInOrder : Prop :=
  (∀ (x : Session) (image : List Word), x.phase ≠ .constructed → x.act (.load image) = (x, .notAdmitted)) ∧
  (∀ (p : Params) (acts : List HostAction), (∀ image, HostAction.load image ∉ acts) →
    ∃ lines, ((Session.construct p).run acts).1 = ⟨{ State.construct p with input := lines }, .constructed⟩) ∧
  (∀ (p : Params) (image : List Word) (acts : List HostAction), p.memWords < image.length →
    ((Session.construct p).act (.load image)).2 = .loadRefused { which := .load, index := p.memWords } ∧
    ∃ lines, ((Session.construct p).run (.load image :: acts)).1 =
      ⟨{ State.construct p with input := lines }, .notStarted⟩) ∧
  (∀ (p : Params) (image : List Word), image.length ≤ p.memWords →
    ∃ s, (State.construct p).load image = .ok s ∧
      (Session.construct p).act (.load image) = (⟨s, .loaded⟩, .done)) ∧
  (∀ x : Session, x.phase = .constructed ∨ x.phase = .notStarted → x.act .step = (x, .notAdmitted)) ∧
  (∀ x : Session, x.phase = .loaded ∨ x.phase = .running →
    (∀ t, step x.core = .next t → x.act .step = (⟨t, .running⟩, .done)) ∧
    (∀ f, step x.core = .fault f → x.act .step = (⟨x.core.afterFault f, .running⟩, .faulted f)) ∧
    (step x.core = .refused .awaitingInput → x.act .step = (x, .waiting)) ∧
    (step x.core = .refused .runOver → x.act .step = (x, .notAdmitted)))

/-- R99 (decision D17): what a faulting step leaves behind. The pc after it is one of two values, and which one is not
stated, for every value of `draws`. -/
def Obligations.FaultingStepLeavesOnlyTheRecord : Prop :=
  ∀ (x y : Session) (f : Fault), x.act .step = (y, .faulted f) →
    step x.core = .fault f ∧ f.pc0 = x.core.pc ∧ y.core.fault = some f ∧
    y.core.mem = x.core.mem ∧ y.core.cmp = x.core.cmp ∧ y.core.halted = x.core.halted ∧
    y.core.output = x.core.output ∧ y.core.input = x.core.input ∧ y.core.params = x.core.params ∧
    (∀ r : RegIdx, r ≠ pcIdx → y.core.reg r = x.core.reg r) ∧
    (y.core.pc = x.core.pc ∨ y.core.pc = x.core.pc + 1#32)

/-- R96 (decision D20): a step after HALT is the fault HaltedStep, whose `pc0` is the current `x[13]`, and changes
nothing but the record. The premise that a halted machine is running holds in every session
(EverySessionKeepsTheInvariant). -/
def Obligations.StepAfterHaltChangesOnlyTheRecord : Prop :=
  ∀ x : Session, x.phase = .running → x.core.fault = none → x.core.halted = true →
    x.act .step =
      ({ x with core := { x.core with fault := some (.haltedStep x.core.pc) } }, .faulted (.haltedStep x.core.pc))

/-- R31 (decision D17): a fault record is final. After any host actions the machine is as the fault left it but for the
input lines supplied, and no step takes place. The premise that `load` was called before holds in every session with a
recorded fault (EverySessionKeepsTheInvariant). -/
def Obligations.FaultRecordIsFinal : Prop :=
  ∀ (x : Session) (acts : List HostAction), x.core.fault.isSome = true → x.phase ≠ .constructed →
    ∃ lines, (x.run acts).1 = { x with core := { x.core with input := x.core.input ++ lines } } ∧
      step (x.run acts).1.core = .refused .runOver

/-- R46 and R35 (decisions D14, D15): a freshly constructed machine loaded with an image holds the image from address 0,
0 elsewhere, and is otherwise as constructed; a too long image is refused. -/
def Obligations.LoadPlacesTheImageOrRefuses : Prop :=
  ∀ (p : Params) (image : List Word),
    (image.length ≤ p.memWords →
      ∃ m : Mem, (State.construct p).load image = .ok { State.construct p with mem := m } ∧ m.wf = true ∧
        ∀ a, m.read a = if a < image.length then image.getD a 0#32 else 0#32) ∧
    (p.memWords < image.length →
      (State.construct p).load image = .error { which := .load, index := p.memWords })

/-- R35's values after construction: decision D14 of the spec ("every value above that is marked as a decision is the
spec's own choice"). -/
def Obligations.ConstructedMachineIsZero : Prop :=
  ∀ p : Params,
    (∀ i : RegIdx, (State.construct p).reg i = 0#32) ∧ (State.construct p).cmp = 0 ∧
    (State.construct p).halted = false ∧ (∀ a, (State.construct p).mem.read a = 0#32) ∧
    (State.construct p).output = [] ∧ (State.construct p).input = [] ∧
    (State.construct p).fault = none ∧ (State.construct p).params = p

/-! ### The assembler -/

/-- R80: an instruction unit with another operand count than its shape's is WrongArity, with the mnemonic, the expected
shape and the count; with the right count it is never WrongArity. -/
def Obligations.WrongOperandCountIsWrongArity : Prop :=
  ∀ (labels : List Label) (op : Opcode) (args : List Text),
    (args.length ≠ operandCount op →
      assembleInstr labels op args = .error (.wrongArity op op.shape args.length)) ∧
    (args.length = operandCount op →
      ∀ (op' : Opcode) (sh : Shape) (k : Nat), assembleInstr labels op args ≠ .error (.wrongArity op' sh k))

/-- R85 (decision D25): no operand value is truncated: an immediate operand is the label's address or the literal's
value itself. -/
def Obligations.AssembledImmediateIsNotTruncated : Prop :=
  ∀ (labels : List Label) (t : Text) (x : BitVec 16), resolveToken labels t = .ok (.immediate x) →
    register? t = none ∧
    ((∃ l, findLabel labels t = some l ∧ x.toNat = l.address) ∨
     (findLabel labels t = none ∧ literal? (stripHash t) = some x.toNat))

/-- R92: every instruction word the assembler makes decodes to exactly the instruction it packed, of the unit's own
mnemonic, with every named register in range and every unused field 0 (R86). -/
def Obligations.AssembledInstructionDecodesBack : Prop :=
  ∀ (labels : List Label) (t : Text) (args : List Text) (op : Opcode) (w : Word),
    mnemonic? t = some op → encodeUnit labels (t :: args) = .ok w →
      ∃ i, assembleInstr labels op args = .ok i ∧ decode w = .ok i ∧ i.opcode = op ∧ i.assemblerForm = true

/-- R69, R73, R76: the image and the source map have one entry a unit; the line the source map names at address `k` is
the unit line with exactly `k` unit lines before it, and the word at `k` is the encoding of its tokens. -/
def Obligations.AssembledWordsComeFromTheirLines : Prop :=
  ∀ (text : Text) (a : Assembly), assemble text = .ok a →
    ∃ p, parseLines 0 (sourceLines text) ⟨[], []⟩ = .ok p ∧
      a.image.length = a.sourceMap.length ∧
      a.image.length = ((sourceLines text).filter isUnitLine).length ∧
      ∀ (k : Nat) (w : Word), a.image[k]? = some w →
        ∃ (n : Nat) (line : Text), a.sourceMap[k]? = some n ∧ (sourceLines text)[n]? = some line ∧
          isUnitLine line = true ∧ (((sourceLines text).take n).filter isUnitLine).length = k ∧
          encodeUnit p.labels (tokenize line).tokens = .ok w

/-- R74, R75 (several pending labels: decision D26; label syntax: D27): the label table holds exactly the labels of the
lines; each names the address of the next unit at or after its line, one past the last if there is none; no name is
defined twice, and each is a good name. -/
def Obligations.LabelsNameTheNextUnit : Prop :=
  ∀ (lines : List Text) (p : Parsed), parseLines 0 lines ⟨[], []⟩ = .ok p →
    (p.labels.map (·.name)).Nodup ∧
    (∀ (n : Nat) (line name : Text), lines[n]? = some line → (tokenize line).label = some name →
      ∃ l ∈ p.labels, l.name = name ∧ l.line = n) ∧
    ∀ l ∈ p.labels, labelNameOk l.name = true ∧
      (∃ line, lines[l.line]? = some line ∧ (tokenize line).label = some l.name) ∧
      l.address = ((lines.take l.line).filter isUnitLine).length

/-- R75: a line that defines a name again is the error DuplicateLabel, with both line indices, in the context of R89. -/
def Obligations.SecondDefinitionIsDuplicateLabel : Prop :=
  ∀ (lines more : List Text) (line : Text) (p : Parsed) (name : Text) (l : Label),
    parseLines 0 lines ⟨[], []⟩ = .ok p → (tokenize line).label = some name → labelNameOk name = true →
    findLabel p.labels name = some l →
      parseLines 0 (lines ++ line :: more) ⟨[], []⟩ =
        .error ⟨.duplicateLabel name l.line lines.length, (lines.filter isUnitLine).length, lines.length,
          trim line⟩
end

