-- ==== Sys2Proof/Laws/Assembler.lean ====
section
/-!
SUPPORT. Laws of the assembler: what each of its functions can answer.
-/

namespace Sys2Proof.Machine

theorem registerField_ok {t : Text} {f : BitVec 4} (h : registerField t = .ok f) :
    ∃ i : RegIdx, register? t = some i ∧ f.toNat = i.val := by
  unfold registerField at h
  split at h
  · next i hi =>
    cases h
    have hlt := i.isLt
    exact ⟨i, hi, by simp only [BitVec.toNat_ofNat]; omega⟩
  · cases h

theorem immediateField_ok {t : Text} {v : Nat} {o : Operand2} (h : immediateField t v = .ok o) :
    v ≤ 65535 ∧ o = .immediate (BitVec.ofNat 16 v) := by
  unfold immediateField at h
  split at h
  · next hv => cases h; exact ⟨hv, rfl⟩
  · cases h

theorem resolveToken_inRange {labels : List Label} {t : Text} {o : Operand2}
    (h : resolveToken labels t = .ok o) : o.inRange = true := by
  unfold resolveToken at h
  split at h
  · next i _ =>
    cases h
    have hlt := i.isLt
    simp only [Operand2.inRange, BitVec.toNat_ofNat, decide_eq_true_eq]
    omega
  · split at h
    · cases h
    · split at h
      · rw [(immediateField_ok h).2]; rfl
      · split at h
        · rw [(immediateField_ok h).2]; rfl
        · cases h

theorem parseLine_units {k : Nat} {line : Text} {p q : Parsed} (h : parseLine k line p = .ok q) :
    q.units = if (tokenize line).tokens.isEmpty then p.units
      else p.units ++ [⟨k, trim line, (tokenize line).tokens⟩] := by
  unfold parseLine at h
  simp only at h
  split at h
  · cases h; rfl
  · split at h
    · split at h
      · cases h
      · cases h; rfl
    · cases h

theorem parseLine_labels {k : Nat} {line : Text} {p q : Parsed} (h : parseLine k line p = .ok q) :
    (tokenize line).label = none ∧ q.labels = p.labels ∨
    ∃ name, (tokenize line).label = some name ∧ labelNameOk name = true ∧ findLabel p.labels name = none ∧
      q.labels = p.labels ++ [⟨name, p.units.length, k⟩] := by
  unfold parseLine at h
  simp only at h
  split at h
  · next hl => cases h; exact .inl ⟨hl, rfl⟩
  · next name hl =>
    split at h
    · next hok =>
      split at h
      · cases h
      · next hf => cases h; exact .inr ⟨name, hl, hok, hf, rfl⟩
    · cases h

end Sys2Proof.Machine
end

