-- ==== Sys2Proof/Laws/Decode.lean ====
section
/-!
SUPPORT. Laws of the word layout and of the opcode map: the fields and the word as numbers, and an opcode's code
and the opcode of a code as inverses.
-/

namespace Sys2Proof

theorem unpack_opcode_toNat (w : Word) : (unpack w).opcode.toNat = w.toNat / 2 ^ 27 % 2 ^ 5 := by
  simp [unpack, BitVec.extractLsb'_toNat, Nat.shiftRight_eq_div_pow]

theorem unpack_rn_toNat (w : Word) : (unpack w).rn.toNat = w.toNat / 2 ^ 23 % 2 ^ 4 := by
  simp [unpack, BitVec.extractLsb'_toNat, Nat.shiftRight_eq_div_pow]

theorem unpack_rd_toNat (w : Word) : (unpack w).rd.toNat = w.toNat / 2 ^ 19 % 2 ^ 4 := by
  simp [unpack, BitVec.extractLsb'_toNat, Nat.shiftRight_eq_div_pow]

theorem unpack_mode_toNat (w : Word) : (unpack w).mode.toNat = w.toNat / 2 ^ 16 % 2 ^ 3 := by
  simp [unpack, BitVec.extractLsb'_toNat, Nat.shiftRight_eq_div_pow]

theorem unpack_operand2_toNat (w : Word) : (unpack w).operand2.toNat = w.toNat % 2 ^ 16 := by
  simp [unpack, BitVec.extractLsb'_toNat]

/-- Two bit strings side by side, as a number. -/
theorem append_toNat {m n : Nat} (x : BitVec m) (y : BitVec n) :
    (x ++ y).toNat = x.toNat * 2 ^ n + y.toNat := by
  rw [BitVec.toNat_append, ← Nat.shiftLeft_add_eq_or_of_lt y.isLt, Nat.shiftLeft_eq]

theorem Opcode.ofCode_code (op : Opcode) : Opcode.ofCode op.code = some op := by
  cases op <;> rfl

theorem Opcode.code_of_ofCode : ∀ c : BitVec 5, ∀ op, Opcode.ofCode c = some op → op.code = c := by
  have h : ∀ n : Fin 32, ∀ op ∈ Opcode.ofCode (BitVec.ofFin n), op.code = BitVec.ofFin n := by decide
  intro c op hc
  exact h c.toFin op hc

theorem Opcode.ofCode_none_iff (c : BitVec 5) : Opcode.ofCode c = none ↔ 20 ≤ c.toNat := by
  simp [Opcode.ofCode, opcodeTable]

theorem Operand2.ofMode_mode (o : Operand2) : Operand2.ofMode o.mode o.raw = some o := by
  cases o <;> rfl

theorem Operand2.ofMode_some {m : BitVec 3} {x : BitVec 16} {o : Operand2} (h : Operand2.ofMode m x = some o) :
    o.mode = m ∧ o.raw = x := by
  unfold Operand2.ofMode at h
  split at h
  · next hm => cases h; exact ⟨hm.symm, rfl⟩
  · split at h
    · next hm => cases h; exact ⟨hm.symm, rfl⟩
    · cases h

theorem Operand2.ofMode_none_iff (m : BitVec 3) (x : BitVec 16) : Operand2.ofMode m x = none ↔ 2 ≤ m.toNat := by
  have h : ∀ n : Fin 8, (Operand2.ofMode (BitVec.ofFin n) 0#16 = none ↔ 2 ≤ n.val) := by decide
  have hx : Operand2.ofMode m x = none ↔ Operand2.ofMode m 0#16 = none := by
    unfold Operand2.ofMode
    split
    · simp
    · split <;> simp
  rw [hx]
  exact h m.toFin

@[simp] theorem Opcode.instr_opcode (op : Opcode) (n d : BitVec 4) (o : Operand2) :
    (op.instr n d o).opcode = op := by cases op <;> rfl

@[simp] theorem Opcode.instr_rn (op : Opcode) (n d : BitVec 4) (o : Operand2) : (op.instr n d o).rn = n := by
  cases op <;> rfl

@[simp] theorem Opcode.instr_rd (op : Opcode) (n d : BitVec 4) (o : Operand2) : (op.instr n d o).rd = d := by
  cases op <;> rfl

@[simp] theorem Opcode.instr_op2 (op : Opcode) (n d : BitVec 4) (o : Operand2) : (op.instr n d o).op2 = o := by
  cases op <;> rfl

/-- An instruction is its opcode with its three operand fields. -/
theorem Instr.eq_instr (i : Instr) : i = i.opcode.instr i.rn i.rd i.op2 := by cases i <;> rfl

/-- What decoding says once: a legal word gives the opcode of its code with its fields. -/
theorem decodeFields_ok {f : Fields} {i : Instr} (h : decodeFields f = .ok i) :
    ∃ op o, Opcode.ofCode f.opcode = some op ∧ Operand2.ofMode f.mode f.operand2 = some o ∧
      i = op.instr f.rn f.rd o := by
  unfold decodeFields at h
  split at h
  · cases h
  · next op hop =>
    split at h
    · cases h
    · next o ho => exact ⟨op, o, hop, ho, (Except.ok.inj h).symm⟩

end Sys2Proof
end

