-- ==== Sys2Proof/Laws/Memory.lean ====
section
/-!
SUPPORT. Memory: a read after a write, and every memory operation keeps the canonical form and the bounds.
-/

namespace Sys2Proof.Machine

theorem Mem.read_below {m : Mem} {lo a : Nat} (h : Mem.wfFrom lo m = true) (ha : a < lo) :
    m.read a = Mem.unlisted := by
  induction m generalizing lo with
  | nil => rfl
  | cons c m ih =>
    obtain ⟨b, w⟩ := c
    simp only [Mem.wfFrom, Bool.and_eq_true, decide_eq_true_eq] at h
    have hb : a ≠ b := by omega
    simp only [Mem.read, hb, if_false]
    exact ih h.2 (by omega)

/-- Reading after a write, at any address, in a canonical memory. -/
theorem Mem.read_writeFrom {m : Mem} {lo : Nat} (h : Mem.wfFrom lo m = true) (a b : Nat) (v : Word) :
    (m.write a v).read b = if b = a then v else m.read b := by
  induction m generalizing lo with
  | nil =>
    by_cases hv : v = Mem.unlisted <;> by_cases hb : b = a <;> simp [Mem.write, Mem.read, hv, hb]
  | cons c m ih =>
    obtain ⟨x, w⟩ := c
    simp only [Mem.wfFrom, Bool.and_eq_true, decide_eq_true_eq] at h
    have hm := ih h.2
    by_cases hlt : a < x
    · have ha : (if a = x then w else Mem.read m a) = Mem.unlisted := by
        rw [if_neg (by omega)]
        exact Mem.read_below h.2 (by omega)
      by_cases hv : v = Mem.unlisted
      · simp only [Mem.write, hlt, hv, if_true, Mem.read]
        by_cases hb : b = a
        · subst hb; rw [ha, if_pos rfl]
        · rw [if_neg hb]
      · simp only [Mem.write, hlt, hv, if_true, if_false, Mem.read]
    · by_cases hax : a = x
      · subst hax
        by_cases hv : v = Mem.unlisted
        · simp only [Mem.write, Nat.lt_irrefl, if_false, hv, if_true, Mem.read]
          by_cases hb : b = a
          · subst hb; simp [Mem.read_below h.2 (Nat.lt_succ_self b)]
          · simp [hb]
        · simp only [Mem.write, Nat.lt_irrefl, if_false, hv, if_true, Mem.read]
          by_cases hb : b = a <;> simp [hb]
      · simp only [Mem.write, hlt, hax, if_false, Mem.read, hm]
        by_cases hb : b = x
        · rw [if_pos hb, if_neg (by omega), if_pos hb]
        · simp only [hb, if_false]

theorem Mem.wfFrom_mono {m : Mem} {lo lo' : Nat} (h : Mem.wfFrom lo m = true) (hl : lo' ≤ lo) :
    Mem.wfFrom lo' m = true := by
  cases m with
  | nil => rfl
  | cons c m =>
    obtain ⟨b, w⟩ := c
    simp only [Mem.wfFrom, Bool.and_eq_true, decide_eq_true_eq] at h ⊢
    exact ⟨⟨by omega, h.1.2⟩, h.2⟩

/-- A write keeps the canonical form. -/
theorem Mem.writeFrom_wf {m : Mem} {lo a : Nat} (v : Word) (h : Mem.wfFrom lo m = true) (ha : lo ≤ a) :
    Mem.wfFrom lo (m.write a v) = true := by
  induction m generalizing lo with
  | nil =>
    by_cases hv : v = Mem.unlisted <;> simp [Mem.write, Mem.wfFrom, hv, ha]
  | cons c m ih =>
    obtain ⟨x, w⟩ := c
    have hc := h
    simp only [Mem.wfFrom, Bool.and_eq_true, decide_eq_true_eq] at h
    by_cases hlt : a < x
    · by_cases hv : v = Mem.unlisted
      · simpa [Mem.write, hlt, hv] using hc
      · simp [Mem.write, hlt, hv, Mem.wfFrom, ha, h.1.2, h.2]
    · by_cases hax : a = x
      · subst hax
        by_cases hv : v = Mem.unlisted
        · simpa [Mem.write, hv] using Mem.wfFrom_mono h.2 (by omega)
        · simp [Mem.write, hv, Mem.wfFrom, ha, h.2]
      · have hr := ih h.2 (by omega)
        simp [Mem.write, hlt, hax, Mem.wfFrom, h.1.1, h.1.2, hr]

/-- Reading after a write, at any address. -/
theorem Mem.read_write {m : Mem} (h : m.wf = true) (a b : Nat) (v : Word) :
    (m.write a v).read b = if b = a then v else m.read b := Mem.read_writeFrom h a b v

theorem Mem.write_wf {m : Mem} (h : m.wf = true) (a : Nat) (v : Word) : (m.write a v).wf = true :=
  Mem.writeFrom_wf v h (Nat.zero_le a)

theorem Mem.write_inBounds {m : Mem} {n : Nat} (h : m.inBounds n = true) {a : Nat} (ha : a < n) (v : Word) :
    (m.write a v).inBounds n = true := by
  induction m with
  | nil =>
    by_cases hv : v = Mem.unlisted <;> simp [Mem.write, Mem.inBounds, hv, ha]
  | cons c m ih =>
    obtain ⟨x, w⟩ := c
    have hx : decide (x < n) = true ∧ Mem.inBounds m n = true := by
      simpa only [Mem.inBounds, List.all_cons, Bool.and_eq_true] using h
    have hc : ∀ (y : Nat) (u : Word) (l : Mem), y < n → Mem.inBounds l n = true →
        Mem.inBounds ((y, u) :: l) n = true := by
      intro y u l hy hl
      simp only [Mem.inBounds, List.all_cons, Bool.and_eq_true, decide_eq_true_eq]
      exact ⟨hy, hl⟩
    have hxn := of_decide_eq_true hx.1
    unfold Mem.write
    split
    · split
      · exact h
      · exact hc _ _ _ ha h
    · split
      · split
        · exact hx.2
        · exact hc _ _ _ ha hx.2
      · exact hc _ _ _ hxn (ih hx.2)

theorem Mem.writeImage_wf {m : Mem} (h : m.wf = true) (a : Nat) (ws : List Word) :
    (m.writeImage a ws).wf = true := by
  induction ws generalizing m a with
  | nil => exact h
  | cons w ws ih => exact ih (Mem.write_wf h a w) (a + 1)

theorem Mem.writeImage_inBounds {m : Mem} {n : Nat} (h : m.inBounds n = true) (a : Nat) (ws : List Word)
    (hl : a + ws.length ≤ n) : (m.writeImage a ws).inBounds n = true := by
  induction ws generalizing m a with
  | nil => exact h
  | cons w ws ih =>
    simp only [List.length_cons] at hl
    exact ih (Mem.write_inBounds h (by omega) w) (a + 1) (by omega)

/-- Reading after an image is written. -/
theorem Mem.read_writeImage {m : Mem} (h : m.wf = true) (a b : Nat) (ws : List Word) :
    (m.writeImage a ws).read b = if a ≤ b ∧ b < a + ws.length then ws.getD (b - a) 0#32 else m.read b := by
  induction ws generalizing m a with
  | nil => rw [if_neg (by simp)]; rfl
  | cons w ws ih =>
    simp only [Mem.writeImage, ih (Mem.write_wf h a w), Mem.read_write h, List.length_cons]
    by_cases hb : b = a
    · subst hb; simp
    · by_cases h1 : a + 1 ≤ b ∧ b < a + 1 + ws.length
      · rw [if_pos h1, if_pos (by omega)]
        obtain ⟨k, hk⟩ : ∃ k, b - a = k + 1 := ⟨b - a - 1, by omega⟩
        have hk' : b - (a + 1) = k := by omega
        simp [hk, hk']
      · rw [if_neg h1, if_neg hb, if_neg (by omega)]

theorem Mem.wf_nil : Mem.wf [] = true := rfl

/-- The memory at reset is canonical. -/
theorem State.reset_mem_wf : State.reset.mem.wf = true := rfl

theorem State.memWrite_wf {s t : State} {a : Nat} {v : Word} (h : s.mem.wf = true)
    (hw : s.memWrite a v = some t) : t.mem.wf = true := by
  unfold State.memWrite at hw
  split at hw
  · cases hw; exact Mem.write_wf h a v
  · cases hw

theorem State.load_wf {s t : State} {image : List Word} (h : s.mem.wf = true)
    (hl : s.load image = .ok t) : t.mem.wf = true := by
  unfold State.load at hl
  split at hl
  · cases hl; exact Mem.writeImage_wf h 0 image
  · cases hl

theorem State.placeFetchWord_wf {s : State} (h : s.mem.wf = true) (w : Word) :
    (s.placeFetchWord w).mem.wf = true := Mem.write_wf h _ w

end Sys2Proof.Machine
end

