-- ==== Sys2Proof/Laws/State.lean ====
section
/-!
SUPPORT. One lemma per field per named update of State, true by rfl, so that no later proof unfolds a record update;
and the register file's read-after-write laws.
-/

namespace Sys2Proof.Machine

variable (s : State)

/-! ### setReg -/

@[simp] theorem State.setReg_regs (i : RegIdx) (v : Word) : (s.setReg i v).regs = s.regs.set i v := rfl
@[simp] theorem State.setReg_cmp (i : RegIdx) (v : Word) : (s.setReg i v).cmp = s.cmp := rfl
@[simp] theorem State.setReg_halted (i : RegIdx) (v : Word) : (s.setReg i v).halted = s.halted := rfl
@[simp] theorem State.setReg_mem (i : RegIdx) (v : Word) : (s.setReg i v).mem = s.mem := rfl
@[simp] theorem State.setReg_output (i : RegIdx) (v : Word) : (s.setReg i v).output = s.output := rfl
@[simp] theorem State.setReg_input (i : RegIdx) (v : Word) : (s.setReg i v).input = s.input := rfl
@[simp] theorem State.setReg_fault (i : RegIdx) (v : Word) : (s.setReg i v).fault = s.fault := rfl
@[simp] theorem State.setReg_params (i : RegIdx) (v : Word) : (s.setReg i v).params = s.params := rfl
@[simp] theorem State.setReg_draws (i : RegIdx) (v : Word) : (s.setReg i v).draws = s.draws := rfl

/-! ### setCmp -/

@[simp] theorem State.setCmp_regs (d : Int) : (s.setCmp d).regs = s.regs := rfl
@[simp] theorem State.setCmp_cmp (d : Int) : (s.setCmp d).cmp = d := rfl
@[simp] theorem State.setCmp_halted (d : Int) : (s.setCmp d).halted = s.halted := rfl
@[simp] theorem State.setCmp_mem (d : Int) : (s.setCmp d).mem = s.mem := rfl
@[simp] theorem State.setCmp_output (d : Int) : (s.setCmp d).output = s.output := rfl
@[simp] theorem State.setCmp_input (d : Int) : (s.setCmp d).input = s.input := rfl
@[simp] theorem State.setCmp_fault (d : Int) : (s.setCmp d).fault = s.fault := rfl
@[simp] theorem State.setCmp_params (d : Int) : (s.setCmp d).params = s.params := rfl
@[simp] theorem State.setCmp_draws (d : Int) : (s.setCmp d).draws = s.draws := rfl

/-! ### halt -/

@[simp] theorem State.halt_regs : s.halt.regs = s.regs := rfl
@[simp] theorem State.halt_cmp : s.halt.cmp = s.cmp := rfl
@[simp] theorem State.halt_halted : s.halt.halted = true := rfl
@[simp] theorem State.halt_mem : s.halt.mem = s.mem := rfl
@[simp] theorem State.halt_output : s.halt.output = s.output := rfl
@[simp] theorem State.halt_input : s.halt.input = s.input := rfl
@[simp] theorem State.halt_fault : s.halt.fault = s.fault := rfl
@[simp] theorem State.halt_params : s.halt.params = s.params := rfl
@[simp] theorem State.halt_draws : s.halt.draws = s.draws := rfl

/-! ### outAppend -/

@[simp] theorem State.outAppend_regs (l : List CodePoint) : (s.outAppend l).regs = s.regs := rfl
@[simp] theorem State.outAppend_cmp (l : List CodePoint) : (s.outAppend l).cmp = s.cmp := rfl
@[simp] theorem State.outAppend_halted (l : List CodePoint) : (s.outAppend l).halted = s.halted := rfl
@[simp] theorem State.outAppend_mem (l : List CodePoint) : (s.outAppend l).mem = s.mem := rfl
@[simp] theorem State.outAppend_output (l : List CodePoint) : (s.outAppend l).output = s.output ++ l := rfl
@[simp] theorem State.outAppend_input (l : List CodePoint) : (s.outAppend l).input = s.input := rfl
@[simp] theorem State.outAppend_fault (l : List CodePoint) : (s.outAppend l).fault = s.fault := rfl
@[simp] theorem State.outAppend_params (l : List CodePoint) : (s.outAppend l).params = s.params := rfl
@[simp] theorem State.outAppend_draws (l : List CodePoint) : (s.outAppend l).draws = s.draws := rfl

/-! ### supplyLine -/

@[simp] theorem State.supplyLine_regs (l : List CodePoint) : (s.supplyLine l).regs = s.regs := rfl
@[simp] theorem State.supplyLine_cmp (l : List CodePoint) : (s.supplyLine l).cmp = s.cmp := rfl
@[simp] theorem State.supplyLine_halted (l : List CodePoint) : (s.supplyLine l).halted = s.halted := rfl
@[simp] theorem State.supplyLine_mem (l : List CodePoint) : (s.supplyLine l).mem = s.mem := rfl
@[simp] theorem State.supplyLine_output (l : List CodePoint) : (s.supplyLine l).output = s.output := rfl
@[simp] theorem State.supplyLine_input (l : List CodePoint) : (s.supplyLine l).input = s.input ++ [l] := rfl
@[simp] theorem State.supplyLine_fault (l : List CodePoint) : (s.supplyLine l).fault = s.fault := rfl
@[simp] theorem State.supplyLine_params (l : List CodePoint) : (s.supplyLine l).params = s.params := rfl
@[simp] theorem State.supplyLine_draws (l : List CodePoint) : (s.supplyLine l).draws = s.draws := rfl

/-! ### placeFetchWord -/

@[simp] theorem State.placeFetchWord_regs (w : Word) : (s.placeFetchWord w).regs = s.regs := rfl
@[simp] theorem State.placeFetchWord_cmp (w : Word) : (s.placeFetchWord w).cmp = s.cmp := rfl
@[simp] theorem State.placeFetchWord_halted (w : Word) : (s.placeFetchWord w).halted = s.halted := rfl
@[simp] theorem State.placeFetchWord_mem (w : Word) : (s.placeFetchWord w).mem = s.mem.write s.pc.toNat w := rfl
@[simp] theorem State.placeFetchWord_output (w : Word) : (s.placeFetchWord w).output = s.output := rfl
@[simp] theorem State.placeFetchWord_input (w : Word) : (s.placeFetchWord w).input = s.input := rfl
@[simp] theorem State.placeFetchWord_fault (w : Word) : (s.placeFetchWord w).fault = s.fault := rfl
@[simp] theorem State.placeFetchWord_params (w : Word) : (s.placeFetchWord w).params = s.params := rfl
@[simp] theorem State.placeFetchWord_draws (w : Word) : (s.placeFetchWord w).draws = s.draws := rfl

/-! ### The two write ports are register writes -/

theorem State.portS_eq : s.portS = s.setReg pcIdx (s.pc + 1#32) := rfl
theorem State.portE_eq (i : RegIdx) (v : Word) : s.portE i v = s.setReg i v := rfl

@[simp] theorem State.portS_cmp : s.portS.cmp = s.cmp := rfl
@[simp] theorem State.portS_halted : s.portS.halted = s.halted := rfl
@[simp] theorem State.portS_mem : s.portS.mem = s.mem := rfl
@[simp] theorem State.portS_output : s.portS.output = s.output := rfl
@[simp] theorem State.portS_input : s.portS.input = s.input := rfl
@[simp] theorem State.portS_fault : s.portS.fault = s.fault := rfl
@[simp] theorem State.portS_params : s.portS.params = s.params := rfl
@[simp] theorem State.portS_draws : s.portS.draws = s.draws := rfl
@[simp] theorem State.portE_cmp (i : RegIdx) (v : Word) : (s.portE i v).cmp = s.cmp := rfl
@[simp] theorem State.portE_halted (i : RegIdx) (v : Word) : (s.portE i v).halted = s.halted := rfl
@[simp] theorem State.portE_mem (i : RegIdx) (v : Word) : (s.portE i v).mem = s.mem := rfl
@[simp] theorem State.portE_output (i : RegIdx) (v : Word) : (s.portE i v).output = s.output := rfl
@[simp] theorem State.portE_input (i : RegIdx) (v : Word) : (s.portE i v).input = s.input := rfl
@[simp] theorem State.portE_fault (i : RegIdx) (v : Word) : (s.portE i v).fault = s.fault := rfl
@[simp] theorem State.portE_params (i : RegIdx) (v : Word) : (s.portE i v).params = s.params := rfl
@[simp] theorem State.portE_draws (i : RegIdx) (v : Word) : (s.portE i v).draws = s.draws := rfl

@[simp] theorem State.portS_memRead (a : Nat) : s.portS.memRead a = s.memRead a := rfl
@[simp] theorem State.portS_inTake_none : s.portS.inTake = none ↔ s.inTake = none := by
  unfold State.inTake
  simp only [State.portS_input]
  split <;> simp

/-! ### Registers: read after write -/

@[simp] theorem State.reg_setReg_same (i : RegIdx) (v : Word) : (s.setReg i v).reg i = v := by
  simp [State.reg, State.setReg]

theorem State.reg_setReg_other (i j : RegIdx) (v : Word) (h : j ≠ i) : (s.setReg i v).reg j = s.reg j := by
  have hv : i.val ≠ j.val := fun e => h (Fin.ext e.symm)
  simp [State.reg, State.setReg, hv]

theorem State.reg_setReg (i j : RegIdx) (v : Word) :
    (s.setReg i v).reg j = if j = i then v else s.reg j := by
  split
  · next h => subst h; simp
  · next h => exact s.reg_setReg_other i j v h

@[simp] theorem State.setCmp_reg (d : Int) (i : RegIdx) : (s.setCmp d).reg i = s.reg i := rfl
@[simp] theorem State.halt_reg (i : RegIdx) : s.halt.reg i = s.reg i := rfl
@[simp] theorem State.outAppend_reg (l : List CodePoint) (i : RegIdx) : (s.outAppend l).reg i = s.reg i := rfl
@[simp] theorem State.supplyLine_reg (l : List CodePoint) (i : RegIdx) : (s.supplyLine l).reg i = s.reg i := rfl
@[simp] theorem State.placeFetchWord_reg (w : Word) (i : RegIdx) : (s.placeFetchWord w).reg i = s.reg i := rfl

@[simp] theorem State.portE_reg_same (i : RegIdx) (v : Word) : (s.portE i v).reg i = v := s.reg_setReg_same i v

theorem State.portE_reg_other (i j : RegIdx) (v : Word) (h : j ≠ i) : (s.portE i v).reg j = s.reg j :=
  s.reg_setReg_other i j v h

/-- A read of index 13 in the execute part of a step gives `pc0 + 1` (R19, R23). -/
@[simp] theorem State.portS_pc : s.portS.reg pcIdx = s.pc + 1#32 := s.reg_setReg_same pcIdx _

/-- A read of any other index gives its value before the step (R19). -/
theorem State.portS_reg_other (i : RegIdx) (h : i ≠ pcIdx) : s.portS.reg i = s.reg i :=
  s.reg_setReg_other pcIdx i _ h

theorem State.pc_eq : s.pc = s.reg pcIdx := rfl

/-! ### The state a fault leaves behind -/

@[simp] theorem State.afterFault_fault (f : Fault) : (s.afterFault f).fault = some f := by cases f <;> rfl
@[simp] theorem State.afterFault_cmp (f : Fault) : (s.afterFault f).cmp = s.cmp := by
  cases f <;> simp only [State.afterFault] <;> split <;> rfl
@[simp] theorem State.afterFault_halted (f : Fault) : (s.afterFault f).halted = s.halted := by
  cases f <;> simp only [State.afterFault] <;> split <;> rfl
@[simp] theorem State.afterFault_mem (f : Fault) : (s.afterFault f).mem = s.mem := by
  cases f <;> simp only [State.afterFault] <;> split <;> rfl
@[simp] theorem State.afterFault_output (f : Fault) : (s.afterFault f).output = s.output := by
  cases f <;> simp only [State.afterFault] <;> split <;> rfl
@[simp] theorem State.afterFault_input (f : Fault) : (s.afterFault f).input = s.input := by
  cases f <;> simp only [State.afterFault] <;> split <;> rfl
@[simp] theorem State.afterFault_params (f : Fault) : (s.afterFault f).params = s.params := by
  cases f <;> simp only [State.afterFault] <;> split <;> rfl

/-- The registers after a fault are those before the step, or those after port S. -/
theorem State.afterFault_regs (f : Fault) : (s.afterFault f).regs = s.regs ∨ (s.afterFault f).regs = s.portS.regs := by
  cases f <;> simp only [State.afterFault] <;> first | exact .inl trivial | (split <;> simp)

/-! ### The two partial updates -/

theorem State.inTake_some {s t : State} (h : s.inTake = some t) :
    ∃ line rest, s.input = line :: rest ∧ t = { s with input := rest } := by
  unfold State.inTake at h
  split at h
  · cases h
  · next line rest hi => exact ⟨line, rest, hi, (Option.some.inj h).symm⟩

theorem State.inTake_none_iff : s.inTake = none ↔ s.input = [] := by
  unfold State.inTake
  split <;> simp_all

theorem State.memWrite_some {s t : State} {a : Nat} {v : Word} (h : s.memWrite a v = some t) :
    a < s.params.memWords ∧ t = { s with mem := s.mem.write a v } := by
  unfold State.memWrite at h
  split at h
  · next ha => exact ⟨ha, (Option.some.inj h).symm⟩
  · cases h

theorem State.memWrite_none_iff (a : Nat) (v : Word) : s.memWrite a v = none ↔ s.params.memWords ≤ a := by
  unfold State.memWrite
  split <;> simp <;> omega

theorem State.memRead_some {s : State} {a : Nat} {v : Word} (h : s.memRead a = some v) :
    a < s.params.memWords ∧ v = s.mem.read a := by
  unfold State.memRead at h
  split at h
  · next ha => exact ⟨ha, (Option.some.inj h).symm⟩
  · cases h

theorem State.memRead_none_iff (a : Nat) : s.memRead a = none ↔ s.params.memWords ≤ a := by
  unfold State.memRead
  split <;> simp <;> omega

end Sys2Proof.Machine
end

