-- ==== Sys2Proof/Laws/Ops.lean ====
section
/-!
SUPPORT. One lemma per shared operation that says once what it can do: if it answers a next state, then what
held; and, on the operands that exist, what it is equal to.
-/

namespace Sys2Proof.Machine

/-! ### Register indices and operands -/

theorem regIdx?_some {n : Nat} {i : RegIdx} (h : regIdx? n = some i) : i.val = n := by
  unfold regIdx? at h
  split at h
  · cases h; rfl
  · cases h

theorem regIdx?_lt {n : Nat} (h : n < 14) : regIdx? n = some ⟨n, h⟩ := by simp [regIdx?, h]

theorem regIdx?_none_iff (n : Nat) : regIdx? n = none ↔ 14 ≤ n := by simp [regIdx?]

theorem resolve_immediate (t : State) (v : BitVec 16) : resolve t (.immediate v) = some (v.zeroExtend 32) := rfl

theorem resolve_direct {t : State} {n : BitVec 16} (h : n.toNat < 14) :
    resolve t (.direct n) = some (t.reg ⟨n.toNat, h⟩) := by simp [resolve, regIdx?_lt h]

theorem resolve_none_iff (t : State) (o : Operand2) : resolve t o = none ↔ o.inRange = false := by
  cases o with
  | direct n => simp [resolve, regIdx?_none_iff, Operand2.inRange]
  | immediate v => simp [resolve, Operand2.inRange]

/-! ### The step's common part -/

theorem withOp2_some {o : Operand2} {s : State} {v : Word} (h : resolve s.portS o = some v)
    (k : Word → State → Res) : withOp2 o s k = k v s.portS := by simp [withOp2, h]

theorem withOp2_none {o : Operand2} {s : State} (h : resolve s.portS o = none) (k : Word → State → Res) :
    withOp2 o s k = .fault (.outOfRangeAddress .operand2 o.raw.toNat s.pc) := by simp [withOp2, h, raise]

theorem withOp2_next {o : Operand2} {s t : State} {k : Word → State → Res} (h : withOp2 o s k = .next t) :
    ∃ v, resolve s.portS o = some v ∧ k v s.portS = .next t := by
  unfold withOp2 at h
  split at h
  · next v hv => exact ⟨v, hv, h⟩
  · cases h

theorem withField_lt {w : Which} {f : BitVec 4} {s : State} (h : f.toNat < 14) (k : RegIdx → Res) :
    withField w f s k = k ⟨f.toNat, h⟩ := by simp [withField, regIdx?_lt h]

theorem withField_ge {w : Which} {f : BitVec 4} {s : State} (h : 14 ≤ f.toNat) (k : RegIdx → Res) :
    withField w f s k = .fault (.outOfRangeAddress w f.toNat s.pc) := by
  simp [withField, (regIdx?_none_iff _).2 h, raise]

theorem withField_next {w : Which} {f : BitVec 4} {s t : State} {k : RegIdx → Res}
    (h : withField w f s k = .next t) : ∃ i, i.val = f.toNat ∧ k i = .next t := by
  unfold withField at h
  split at h
  · next i hi => exact ⟨i, regIdx?_some hi, h⟩
  · cases h

/-! ### The shared arms -/

theorem aluRegister_next {op : AluOp} {rn rd : BitVec 4} {o : Operand2} {s t : State}
    (h : aluRegister op rn rd o s = .next t) :
    ∃ v n d, resolve s.portS o = some v ∧ n.val = rn.toNat ∧ d.val = rd.toNat ∧
      t = s.portS.portE d (alu op (s.portS.reg n) v) := by
  obtain ⟨v, hv, h⟩ := withOp2_next h
  obtain ⟨n, hn, h⟩ := withField_next h
  obtain ⟨d, hd, h⟩ := withField_next h
  cases h
  exact ⟨v, n, d, hv, hn, hd, rfl⟩

theorem aluMove_next {op : AluOp} {rd : BitVec 4} {o : Operand2} {s t : State}
    (h : aluMove op rd o s = .next t) :
    ∃ v d, resolve s.portS o = some v ∧ d.val = rd.toNat ∧ t = s.portS.portE d (alu op 0#32 v) := by
  obtain ⟨v, hv, h⟩ := withOp2_next h
  obtain ⟨d, hd, h⟩ := withField_next h
  cases h
  exact ⟨v, d, hv, hd, rfl⟩

theorem branch_next {op : Opcode} {o : Operand2} {s t : State} (h : branch op o s = .next t) :
    ∃ v, resolve s.portS o = some v ∧
      ((branchTaken op.controls.brCond s.cmp = true ∧ t = s.portS.portE pcIdx v) ∨
       (branchTaken op.controls.brCond s.cmp = false ∧ t = s.portS)) := by
  obtain ⟨v, hv, h⟩ := withOp2_next h
  refine ⟨v, hv, ?_⟩
  simp only [branchLogic, State.portS_cmp] at h
  cases hb : branchTaken op.controls.brCond s.cmp <;> simp only [hb] at h <;> cases h
  · exact .inr ⟨rfl, rfl⟩
  · exact .inl ⟨rfl, rfl⟩

theorem execLdr_next {rd : BitVec 4} {o : Operand2} {s t : State} (h : execLdr rd o s = .next t) :
    ∃ v d, resolve s.portS o = some v ∧ d.val = rd.toNat ∧ v.toNat < s.params.memWords ∧
      t = s.portS.portE d (s.mem.read v.toNat) := by
  obtain ⟨v, hv, h⟩ := withOp2_next h
  obtain ⟨d, hd, h⟩ := withField_next h
  split at h
  · next x hx =>
    obtain ⟨hlt, rfl⟩ := State.memRead_some hx
    cases h
    exact ⟨v, d, hv, hd, hlt, rfl⟩
  · cases h

theorem execStr_next {rd : BitVec 4} {o : Operand2} {s t : State} (h : execStr rd o s = .next t) :
    ∃ v d, resolve s.portS o = some v ∧ d.val = rd.toNat ∧ v.toNat < s.params.memWords ∧
      t = { s.portS with mem := s.mem.write v.toNat (s.portS.reg d) } := by
  obtain ⟨v, hv, h⟩ := withOp2_next h
  obtain ⟨d, hd, h⟩ := withField_next h
  split at h
  · next u hu =>
    obtain ⟨hlt, rfl⟩ := State.memWrite_some hu
    cases h
    exact ⟨v, d, hv, hd, hlt, rfl⟩
  · cases h

theorem execCmp_next {rn : BitVec 4} {o : Operand2} {s t : State} (h : execCmp rn o s = .next t) :
    ∃ v n, resolve s.portS o = some v ∧ n.val = rn.toNat ∧ t = s.portS.setCmp (exactDifference (s.portS.reg n) v) := by
  obtain ⟨v, hv, h⟩ := withOp2_next h
  obtain ⟨n, hn, h⟩ := withField_next h
  cases h
  exact ⟨v, n, hv, hn, rfl⟩

theorem execHalt_next {o : Operand2} {s t : State} (h : execHalt o s = .next t) :
    ∃ v, resolve s.portS o = some v ∧ t = s.portS.halt := by
  obtain ⟨v, hv, h⟩ := withOp2_next h
  cases h
  exact ⟨v, hv, rfl⟩

theorem execInp_next {o : Operand2} {s t : State} (h : execInp o s = .next t) :
    ∃ v line rest, resolve s.portS o = some v ∧ s.input = line :: rest ∧ t = { s.portS with input := rest } := by
  obtain ⟨v, hv, h⟩ := withOp2_next h
  split at h
  · next u hu =>
    obtain ⟨line, rest, hi, rfl⟩ := State.inTake_some hu
    cases h
    exact ⟨v, line, rest, hv, hi, rfl⟩
  · cases h

theorem execOut_next {rn : BitVec 4} {o : Operand2} {s t : State} (h : execOut rn o s = .next t) :
    ∃ v n c, resolve s.portS o = some v ∧ n.val = rn.toNat ∧ t = s.portS.outAppend c ∧
      ((v = s.params.devDec ∧ c = decText (s.portS.reg n)) ∨
       (v ≠ s.params.devDec ∧ v = s.params.devChr ∧ chrText (s.portS.reg n) = some c)) := by
  obtain ⟨v, hv, h⟩ := withOp2_next h
  obtain ⟨n, hn, h⟩ := withField_next h
  split at h
  · next h1 => cases h; exact ⟨v, n, _, hv, hn, rfl, .inl ⟨h1, rfl⟩⟩
  · next h1 =>
    split at h
    · next h2 =>
      split at h
      · next c hc => cases h; exact ⟨v, n, c, hv, hn, rfl, .inr ⟨h1, h2, hc⟩⟩
      · cases h
    · cases h

/-! ### The shared arms on operands that exist -/

theorem aluRegister_eq {op : AluOp} {rn rd : BitVec 4} {o : Operand2} {s : State} {v : Word}
    (hv : resolve s.portS o = some v) (hn : rn.toNat < 14) (hd : rd.toNat < 14) :
    aluRegister op rn rd o s =
      .next (s.portS.portE ⟨rd.toNat, hd⟩ (alu op (s.portS.reg ⟨rn.toNat, hn⟩) v)) := by
  simp [aluRegister, withOp2_some hv, withField_lt hn, withField_lt hd]

theorem aluMove_eq {op : AluOp} {rd : BitVec 4} {o : Operand2} {s : State} {v : Word}
    (hv : resolve s.portS o = some v) (hd : rd.toNat < 14) :
    aluMove op rd o s = .next (s.portS.portE ⟨rd.toNat, hd⟩ (alu op 0#32 v)) := by
  simp [aluMove, withOp2_some hv, withField_lt hd]

theorem branch_eq {op : Opcode} {o : Operand2} {s : State} {v : Word} (hv : resolve s.portS o = some v) :
    branch op o s =
      .next (if branchTaken op.controls.brCond s.cmp = true then s.portS.portE pcIdx v else s.portS) := by
  rw [branch, withOp2_some hv, branchLogic, State.portS_cmp]
  cases branchTaken op.controls.brCond s.cmp <;> rfl

/-- A fault of an execute arm carries the address of its own word (R130). -/
theorem exec_fault_pc0 {i : Instr} {s : State} {f : Fault} (h : exec i s = .fault f) : f.pc0 = s.pc := by
  cases i <;>
    simp only [exec, execLdr, execStr, execAdd, execSub, execMov, execCmp, execB, execBeq, execBne, execBgt,
      execBlt, execAnd, execOrr, execEor, execMvn, execLsl, execLsr, execHalt, execInp, execOut, aluRegister,
      aluMove, branch, withOp2, withField, raise] at h <;>
    (repeat' split at h) <;> cases h <;> rfl

/-! ### The step -/

/-- What a step does once it has an instruction (R95). -/
theorem step_of_fetchInstr {s : State} {i : Instr} (h : fetchInstr s = .next i) : step s = exec i s := by
  simp [step, h]

theorem step_next {s t : State} (h : step s = .next t) :
    ∃ i, fetchInstr s = .next i ∧ exec i s = .next t := by
  unfold step at h
  split at h
  · next i hi => exact ⟨i, hi, h⟩
  · cases h
  · cases h

/-- When the head of R95 gives an instruction. -/
theorem fetchInstr_next {s : State} {i : Instr} (h : fetchInstr s = .next i) :
    s.fault = none ∧ s.halted = false ∧ s.pc.toNat < s.params.memWords ∧
      decode (s.mem.read s.pc.toNat) = .ok i := by
  unfold fetchInstr at h
  split at h
  · cases h
  · next hf =>
    split at h
    · cases h
    · next hh =>
      split at h
      · cases h
      · next w hw =>
        obtain ⟨hlt, rfl⟩ := State.memRead_some hw
        split at h
        · cases h
        · next j hj =>
          cases h
          exact ⟨by simpa using hf, by simpa using hh, hlt, hj⟩

/-- The same, read the other way. -/
theorem fetchInstr_of {s : State} {i : Instr} (hf : s.fault = none) (hh : s.halted = false)
    (hp : s.pc.toNat < s.params.memWords) (hd : decode (s.mem.read s.pc.toNat) = .ok i) :
    fetchInstr s = .next i := by
  simp [fetchInstr, hf, hh, State.memRead, hp, hd]

end Sys2Proof.Machine
end

