-- ==== Sys2Proof/Laws/PerInstr.lean ====
section
/-!
SUPPORT. Laws about an instruction as syntax, one lemma per constructor: the top five bits of an instruction's word
are its opcode's place in the fixed ordering (spec/30_encoding.md R56).
-/

namespace Sys2Proof.Laws

/-- The top five bits of `i`'s word are its opcode's code. -/
def EncodedOpcode.Statement (i : Instr) : Prop := (encode i).toNat / 2 ^ 27 = i.opcode.code.toNat

theorem encode_opcode_bits (i : Instr) : (encode i).toNat / 2 ^ 27 = i.opcode.code.toNat := by
  have h1 := i.op2.raw.isLt
  have h2 := i.op2.mode.isLt
  have h3 := i.rd.isLt
  have h4 := i.rn.isLt
  simp only [encode, pack, Instr.fields, append_toNat]
  omega

theorem EncodedOpcode.ldr (rn rd : BitVec 4) (op2 : Operand2) :
    EncodedOpcode.Statement (.ldr rn rd op2) := encode_opcode_bits _

theorem EncodedOpcode.str (rn rd : BitVec 4) (op2 : Operand2) :
    EncodedOpcode.Statement (.str rn rd op2) := encode_opcode_bits _

theorem EncodedOpcode.add (rn rd : BitVec 4) (op2 : Operand2) :
    EncodedOpcode.Statement (.add rn rd op2) := encode_opcode_bits _

theorem EncodedOpcode.sub (rn rd : BitVec 4) (op2 : Operand2) :
    EncodedOpcode.Statement (.sub rn rd op2) := encode_opcode_bits _

theorem EncodedOpcode.mov (rn rd : BitVec 4) (op2 : Operand2) :
    EncodedOpcode.Statement (.mov rn rd op2) := encode_opcode_bits _

theorem EncodedOpcode.cmp (rn rd : BitVec 4) (op2 : Operand2) :
    EncodedOpcode.Statement (.cmp rn rd op2) := encode_opcode_bits _

theorem EncodedOpcode.b (rn rd : BitVec 4) (op2 : Operand2) :
    EncodedOpcode.Statement (.b rn rd op2) := encode_opcode_bits _

theorem EncodedOpcode.beq (rn rd : BitVec 4) (op2 : Operand2) :
    EncodedOpcode.Statement (.beq rn rd op2) := encode_opcode_bits _

theorem EncodedOpcode.bne (rn rd : BitVec 4) (op2 : Operand2) :
    EncodedOpcode.Statement (.bne rn rd op2) := encode_opcode_bits _

theorem EncodedOpcode.bgt (rn rd : BitVec 4) (op2 : Operand2) :
    EncodedOpcode.Statement (.bgt rn rd op2) := encode_opcode_bits _

theorem EncodedOpcode.blt (rn rd : BitVec 4) (op2 : Operand2) :
    EncodedOpcode.Statement (.blt rn rd op2) := encode_opcode_bits _

theorem EncodedOpcode.and (rn rd : BitVec 4) (op2 : Operand2) :
    EncodedOpcode.Statement (.and rn rd op2) := encode_opcode_bits _

theorem EncodedOpcode.orr (rn rd : BitVec 4) (op2 : Operand2) :
    EncodedOpcode.Statement (.orr rn rd op2) := encode_opcode_bits _

theorem EncodedOpcode.eor (rn rd : BitVec 4) (op2 : Operand2) :
    EncodedOpcode.Statement (.eor rn rd op2) := encode_opcode_bits _

theorem EncodedOpcode.mvn (rn rd : BitVec 4) (op2 : Operand2) :
    EncodedOpcode.Statement (.mvn rn rd op2) := encode_opcode_bits _

theorem EncodedOpcode.lsl (rn rd : BitVec 4) (op2 : Operand2) :
    EncodedOpcode.Statement (.lsl rn rd op2) := encode_opcode_bits _

theorem EncodedOpcode.lsr (rn rd : BitVec 4) (op2 : Operand2) :
    EncodedOpcode.Statement (.lsr rn rd op2) := encode_opcode_bits _

theorem EncodedOpcode.halt (rn rd : BitVec 4) (op2 : Operand2) :
    EncodedOpcode.Statement (.halt rn rd op2) := encode_opcode_bits _

theorem EncodedOpcode.inp (rn rd : BitVec 4) (op2 : Operand2) :
    EncodedOpcode.Statement (.inp rn rd op2) := encode_opcode_bits _

theorem EncodedOpcode.out (rn rd : BitVec 4) (op2 : Operand2) :
    EncodedOpcode.Statement (.out rn rd op2) := encode_opcode_bits _

end Sys2Proof.Laws
end

