-- ==== Sys2Proof/Laws/Session.lean ====
section
/-!
SUPPORT. Laws of the host's actions: what one action can leave, and the induction over a sequence of them.
-/

namespace Sys2Proof.Machine

@[simp] theorem Phase.mayStep_constructed : Phase.constructed.mayStep = false := rfl
@[simp] theorem Phase.mayStep_loaded : Phase.loaded.mayStep = true := rfl
@[simp] theorem Phase.mayStep_running : Phase.running.mayStep = true := rfl
@[simp] theorem Phase.mayStep_notStarted : Phase.notStarted.mayStep = false := rfl

/-- The phases in which the host may step. -/
theorem Phase.mayStep_iff (p : Phase) : p.mayStep = true ↔ p = .loaded ∨ p = .running := by
  cases p <;> decide

@[simp] theorem Session.construct_core (p : Params) : (Session.construct p).core = State.construct p := rfl
@[simp] theorem Session.construct_phase (p : Params) : (Session.construct p).phase = .constructed := rfl

@[simp] theorem Session.act_supplyLine (x : Session) (line : List CodePoint) :
    x.act (.supplyLine line) = ({ x with core := x.core.supplyLine line }, .done) := rfl

/-- `load` is admitted on a constructed machine only. -/
theorem Session.act_load_of_ne {x : Session} (h : x.phase ≠ .constructed) (image : List Word) :
    x.act (.load image) = (x, .notAdmitted) := by
  simp [Session.act, h]

/-- `step` is not admitted before an accepted `load`. -/
theorem Session.act_step_of_not {x : Session} (h : x.phase.mayStep = false) : x.act .step = (x, .notAdmitted) := by
  simp [Session.act, h]

/-- Everything one host action can leave behind. -/
theorem Session.act_cases (x : Session) (a : HostAction) :
    (x.act a).1 = x ∨
    (∃ line, a = .supplyLine line ∧ (x.act a).1 = { x with core := x.core.supplyLine line }) ∨
    (∃ image s, a = .load image ∧ x.phase = .constructed ∧ x.core.load image = .ok s ∧
      (x.act a).1 = ⟨s, .loaded⟩) ∨
    (∃ image r, a = .load image ∧ x.phase = .constructed ∧ x.core.load image = .error r ∧
      (x.act a).1 = { x with phase := .notStarted }) ∨
    (∃ s, a = .step ∧ x.phase.mayStep = true ∧ Sys2Proof.Machine.step x.core = .next s ∧
      (x.act a).1 = ⟨s, .running⟩) ∨
    (∃ f, a = .step ∧ x.phase.mayStep = true ∧ Sys2Proof.Machine.step x.core = .fault f ∧
      (x.act a).1 = ⟨x.core.afterFault f, .running⟩) := by
  cases a with
  | supplyLine line => exact .inr (.inl ⟨line, rfl, rfl⟩)
  | load image =>
    by_cases hp : x.phase = .constructed
    · cases hl : x.core.load image with
      | ok s => exact .inr (.inr (.inl ⟨image, s, rfl, hp, hl, by simp [Session.act, hp, hl]⟩))
      | error r => exact .inr (.inr (.inr (.inl ⟨image, r, rfl, hp, hl, by simp [Session.act, hp, hl]⟩)))
    · exact .inl (by rw [Session.act_load_of_ne hp])
  | step =>
    cases hm : x.phase.mayStep with
    | false => exact .inl (by rw [Session.act_step_of_not hm])
    | true =>
      cases hs : Sys2Proof.Machine.step x.core with
      | next s => exact .inr (.inr (.inr (.inr (.inl ⟨s, rfl, rfl, rfl, by simp only [Session.act, hm, hs]; rfl⟩))))
      | fault f => exact .inr (.inr (.inr (.inr (.inr ⟨f, rfl, rfl, rfl, by simp only [Session.act, hm, hs]; rfl⟩))))
      | refused r => exact .inl (by cases r <;> simp only [Session.act, hm, hs] <;> rfl)

@[simp] theorem Session.run_nil (x : Session) : x.run [] = (x, []) := rfl

@[simp] theorem Session.run_cons_fst (x : Session) (a : HostAction) (acts : List HostAction) :
    (x.run (a :: acts)).1 = ((x.act a).1.run acts).1 := rfl

/-- What every host action keeps, every sequence of them keeps. -/
theorem Session.run_keeps {P : Session → Prop} (keeps : ∀ (x : Session) (a : HostAction), P x → P (x.act a).1)
    (acts : List HostAction) : ∀ x : Session, P x → P (x.run acts).1 := by
  induction acts with
  | nil => exact fun _ h => h
  | cons a rest ih => exact fun x h => ih _ (keeps x a h)

end Sys2Proof.Machine
end

