-- ==== Sys2Proof/Tests/Slice0.lean ====
section
/-!
SUPPORT. The model's own tests. Expected results are those of spec/95_test_vectors.md (named by section) or of the
worked example of the rule named; DEV_DEC = 1 and DEV_CHR = 2 are that file's instantiation of the open parameters.
The last part shows, for every statement with hypotheses, a state and operands that meet them.
-/

namespace Sys2Proof.Tests

open Sys2Proof.Machine Sys2Proof.Claims

/-! ### Helpers -/

/-- A machine of `n` words with the given registers and memory words, the rest as constructed. -/
def machine (n : Nat) (regs : List (RegIdx × Word)) (words : List (Nat × Word)) : State :=
  words.foldl (fun s c => { s with mem := s.mem.write c.1 c.2 })
    (regs.foldl (fun s c => s.setReg c.1 c.2) (State.construct ⟨n, 1, 2⟩))

/-- The usual test machine: 256 words. -/
def m256 (regs : List (RegIdx × Word)) (words : List (Nat × Word)) : State := machine 256 regs words

/-- Something of the next state, if there is one. -/
def after {α : Type} (r : Res) (f : State → α) : Option α :=
  match r with
  | .next t => some (f t)
  | _ => none

/-- The fault, if the step ended in one. -/
def faultOf (r : Res) : Option Fault :=
  match r with
  | .fault f => some f
  | _ => none

/-- The refusal, if there is no step. -/
def refusalOf (r : Res) : Option Refusal :=
  match r with
  | .refused x => some x
  | _ => none

/-! ### Decoding: one word for each constructor, from the encodings and examples of R104 to R128 -/

theorem test_decode_ldr : decode 0x0011000A#32 = .ok (.ldr 0 2 (.immediate 10)) := by decide
theorem test_decode_str : decode 0x08010014#32 = .ok (.str 0 0 (.immediate 20)) := by decide
theorem test_decode_add : decode 0x16E10001#32 = .ok (.add 13 12 (.immediate 1)) := by decide
theorem test_decode_sub : decode 0x18090001#32 = .ok (.sub 0 1 (.immediate 1)) := by decide
theorem test_decode_mov : decode 0x20680003#32 = .ok (.mov 0 13 (.direct 3)) := by decide
theorem test_decode_cmp : decode 0x28010007#32 = .ok (.cmp 0 0 (.immediate 7)) := by decide
theorem test_decode_b : decode 0x3000000D#32 = .ok (.b 0 0 (.direct 13)) := by decide
theorem test_decode_beq : decode 0x38010005#32 = .ok (.beq 0 0 (.immediate 5)) := by decide
theorem test_decode_bne : decode 0x40010005#32 = .ok (.bne 0 0 (.immediate 5)) := by decide
theorem test_decode_bgt : decode 0x48010005#32 = .ok (.bgt 0 0 (.immediate 5)) := by decide
theorem test_decode_blt : decode 0x50010005#32 = .ok (.blt 0 0 (.immediate 5)) := by decide
theorem test_decode_and : decode 0x589100FF#32 = .ok (.and 1 2 (.immediate 0xFF)) := by decide
theorem test_decode_orr : decode 0x6091000F#32 = .ok (.orr 1 2 (.immediate 0x0F)) := by decide
theorem test_decode_eor : decode 0x6891000F#32 = .ok (.eor 1 2 (.immediate 0x0F)) := by decide
theorem test_decode_mvn : decode 0x70010000#32 = .ok (.mvn 0 0 (.immediate 0)) := by decide
theorem test_decode_lsl : decode 0x7891001F#32 = .ok (.lsl 1 2 (.immediate 31)) := by decide
theorem test_decode_lsr : decode 0x8091001F#32 = .ok (.lsr 1 2 (.immediate 31)) := by decide
theorem test_decode_halt : decode 0x88000000#32 = .ok (.halt 0 0 (.direct 0)) := by decide
theorem test_decode_inp : decode 0x90790000#32 = .ok (.inp 0 15 (.immediate 0)) := by decide
theorem test_decode_out : decode 0x9E810001#32 = .ok (.out 13 0 (.immediate 1)) := by decide

/-- §2.1, with every field nonzero. -/
theorem test_decode_all_fields : decode 0x9FF9FFFF#32 = .ok (.out 15 15 (.immediate 0xFFFF)) := by decide
/-- §2.1. -/
theorem test_decode_opcode20 : decode 0xA0000000#32 = .error (.illegalOpcode 20) := by decide
/-- §2.1: the opcode is tested before the mode. -/
theorem test_decode_opcode_before_mode : decode 0xFFFFFFFF#32 = .error (.illegalOpcode 31) := by decide
/-- §2.1: bit 16 alone is not the mode. -/
theorem test_decode_mode4 : decode 0x20040005#32 = .error (.illegalMode 4) := by decide
/-- §2.1. -/
theorem test_decode_mode7 : decode 0x887FFFFF#32 = .error (.illegalMode 7) := by decide

/-- E1's last row, packed. -/
theorem test_encode_out : encode (.out 15 15 (.immediate 0xFFFF)) = 0x9FF9FFFF#32 := by decide
theorem test_encode_mov : encode (.mov 0 13 (.direct 12)) = 0x2068000C#32 := by decide

/-- R65: the decoder block's verdicts on a word of illegal opcode and mode. -/
theorem test_decoder_block : (decoderBlock 0xFFFFFFFF#32).legalOpcode = false ∧
    (decoderBlock 0xFFFFFFFF#32).legalMode = false ∧ (decoderBlock 0xFFFFFFFF#32).controls = none := by decide

theorem test_table_word : decodeTableWord 32 0x10000000 = some (.add 0 0 (.direct 0)) := by decide

/-! ### WellFormed: an ill-formed term for each check, which the check refuses -/

theorem smoke_direct_index : (Instr.mov 0 1 (.direct 14)).wellFormed = false := by decide
theorem smoke_rn : (Instr.cmp 14 0 (.immediate 0)).wellFormed = false := by decide
theorem smoke_rd : (Instr.ldr 0 15 (.immediate 0)).wellFormed = false := by decide
theorem smoke_unused_rd_allowed : (Instr.b 15 15 (.immediate 0)).wellFormed = true := by decide
theorem smoke_assembler_rn : (Instr.mov 1 1 (.immediate 0)).assemblerForm = false := by decide
theorem smoke_assembler_rd : (Instr.cmp 1 1 (.immediate 0)).assemblerForm = false := by decide
theorem smoke_assembler_inp_rd : (Instr.inp 0 14 (.immediate 0)).assemblerForm = false := by decide
theorem smoke_assembler_halt : (Instr.halt 0 0 (.immediate 0)).assemblerForm = false := by decide
theorem smoke_assembler_good : (Instr.add 13 12 (.immediate 1)).assemblerForm = true := by decide

/-! ### Operand2 and the ports (§2.2, §2.3) -/

theorem test_op2_register :
    resolve (m256 [(3, 0xDEADBEEF#32)] []).portS (.direct 3) = some 0xDEADBEEF#32 := by decide
theorem test_op2_pc : resolve (m256 [(13, 7#32)] []).portS (.direct 13) = some 8#32 := by decide
theorem test_op2_immediate : resolve (m256 [] []).portS (.immediate 0xFFFF) = some 65535#32 := by decide
theorem test_op2_bad : resolve (m256 [] []).portS (.direct 0xFFFF) = none := by decide
theorem test_mov_pc_pc : after (step (m256 [(13, 7#32)] [(7, 0x2068000D#32)])) State.pc = some 8#32 := by decide
theorem test_sub_pc_loops : after (step (m256 [(13, 7#32)] [(7, 0x1EE90001#32)])) State.pc = some 7#32 := by decide

/-! ### Loads and stores (§2.6) -/

theorem test_ldr : after (step (m256 [] [(0, 0x0011000A#32), (10, 0x30#32)])) (·.reg 2) = some 0x30#32 := by decide
theorem test_ldr_pc : after (step (m256 [] [(0, 0x00690014#32), (20, 3#32)])) State.pc = some 3#32 := by decide
theorem test_str_pc : after (step (m256 [(13, 6#32)] [(6, 0x08690014#32)])) (·.mem.read 20) = some 7#32 := by decide

/-! ### ALU (§2.4) -/

theorem test_add_wraps : after (step (m256 [(0, 0xFFFFFFFF#32)] [(0, 0x10090001#32)])) (·.reg 1) = some 0#32 := by
  decide
theorem test_add_reads_before_write : after (step (m256 [(0, 3#32)] [(0, 0x10000000#32)])) (·.reg 0) =
    some 6#32 := by decide
theorem test_sub_wraps : after (step (m256 [] [(0, 0x18090001#32)])) (·.reg 1) = some 0xFFFFFFFF#32 := by decide
theorem test_mov_pc : after (step (m256 [(3, 9#32)] [(0, 0x20680003#32)])) State.pc = some 9#32 := by decide
theorem test_and : after (step (m256 [(1, 0xF0F0#32)] [(0, 0x589100FF#32)])) (·.reg 2) = some 0xF0#32 := by decide
theorem test_orr : after (step (m256 [(1, 0xF0F0#32)] [(0, 0x6091000F#32)])) (·.reg 2) = some 0xF0FF#32 := by decide
theorem test_eor : after (step (m256 [(1, 0xFF#32)] [(0, 0x6891000F#32)])) (·.reg 2) = some 0xF0#32 := by decide
theorem test_mvn : after (step (m256 [] [(0, 0x70010005#32)])) (·.reg 0) = some 0xFFFFFFFA#32 := by decide
theorem test_lsl_31 : after (step (m256 [(1, 1#32)] [(0, 0x7891001F#32)])) (·.reg 2) = some 0x80000000#32 := by decide
theorem test_lsl_huge : alu .shl 0xFFFFFFFF#32 0xFFFFFFFF#32 = 0#32 := by decide
theorem test_lsr_31 : after (step (m256 [(1, 0x80000000#32)] [(0, 0x8091001F#32)])) (·.reg 2) = some 1#32 := by decide
theorem test_lsr_32 : alu .shr 0xFFFFFFFF#32 32#32 = 0#32 := by decide

/-! ### Compare and branch (§2.5, E5) -/

theorem test_cmp_negative : after (step (m256 [(0, 5#32)] [(0, 0x28010007#32)])) (·.cmp) = some (-2) := by decide
theorem test_cmp_exact : exactDifference 0xFFFFFFFF#32 0#32 = 4294967295 ∧ exactDifference 0#32 0xFFFFFFFF#32 = -4294967295 := by
  decide
theorem test_b_register : after (step (m256 [(3, 40#32)] [(0, 0x30000003#32)])) State.pc = some 40#32 := by decide
theorem test_beq_fresh : after (step (m256 [] [(0, 0x38010005#32)])) State.pc = some 5#32 := by decide
theorem test_bne_fresh : after (step (m256 [] [(0, 0x40010005#32)])) State.pc = some 1#32 := by decide
theorem test_bgt_large : after (step ((m256 [] [(0, 0x48010005#32)]).setCmp 4294967295)) State.pc =
    some 5#32 := by decide
theorem test_blt_fresh : after (step (m256 [] [(0, 0x50010005#32)])) State.pc = some 1#32 := by decide
theorem test_blt_negative : after (step ((m256 [] [(0, 0x50010005#32)]).setCmp (-2))) State.pc = some 5#32 := by
  decide

/-! ### System and I/O (§2.7) -/

theorem test_halt : after (step (m256 [(13, 3#32)] [(3, 0x88000000#32)])) (fun t => (t.halted, t.pc)) =
    some (true, 4#32) := by decide
theorem test_inp_takes_line :
    after (step ((m256 [] [(0, 0x90790000#32)]).supplyLine [104])) (fun t => (t.input, t.reg 0)) =
      some ([], 0#32) := by decide
theorem test_inp_waits : refusalOf (step (m256 [] [(0, 0x90010002#32)])) = some .awaitingInput := by decide
theorem test_out_pc : after (step (m256 [(13, 4#32)] [(4, 0x9E810001#32)])) (·.output) = some [53] := by decide
theorem test_out_char : after (step (m256 [(0, 65#32), (1, 2#32)] [(0, 0x98000001#32)])) (·.output) =
    some [65] := by decide

/-! ### Fault priority (§2.8) -/

theorem test_fault_halted : faultOf (step (m256 [(13, 4#32)] []).halt) = some (.haltedStep 4) := by decide
theorem test_fault_fetch : faultOf (step (m256 [(13, 256#32)] [])) =
    some (.outOfRangeAddress .fetch 256 256) := by decide
theorem test_fault_opcode : faultOf (step (m256 [] [(0, 0xA0050000#32)])) = some (.illegalOpcode 20 0) := by decide
theorem test_fault_mode : faultOf (step (m256 [] [(0, 0x887FFFFF#32)])) = some (.illegalMode 7 0) := by decide
theorem test_fault_operand2_before_rn : faultOf (step (m256 [] [(0, 0x1780000E#32)])) =
    some (.outOfRangeAddress .operand2 14 0) := by decide
theorem test_fault_rn_before_rd : faultOf (step (m256 [] [(0, 0x17790000#32)])) =
    some (.outOfRangeAddress .rn 14 0) := by decide
theorem test_fault_rd_before_data : faultOf (step (m256 [] [(0, 0x0071012C#32)])) =
    some (.outOfRangeAddress .rd 14 0) := by decide
theorem test_fault_halt_operand2 : faultOf (step (m256 [] [(0, 0x8800000E#32)])) =
    some (.outOfRangeAddress .operand2 14 0) := by decide
theorem test_fault_rn_before_device : faultOf (step (m256 [] [(0, 0x9F810063#32)])) =
    some (.outOfRangeAddress .rn 15 0) := by decide
theorem test_out_char_too_large : faultOf (step (m256 [(0, 0x110000#32)] [(0, 0x98010002#32)])) =
    some (.unrepresentableCharacter 0x110000 0) := by decide
theorem test_out_unsupported : faultOf (step (m256 [] [(0, 0x98010063#32)])) =
    some (.unsupportedDevice 99 0) := by decide
theorem test_ldr_out_of_range : faultOf (step (m256 [(0, 0xFFFFFFFF#32)] [(0, 0x00080000#32)])) =
    some (.outOfRangeAddress .data 0xFFFFFFFF 0) := by decide
theorem test_str_past_end : faultOf (step (m256 [(0, 9#32)] [(0, 0x08010100#32)])) =
    some (.outOfRangeAddress .data 256 0) := by decide
/-- The list of R139, written apart from `step`, gives the same fault. -/
theorem test_first_fault : (m256 [] [(0, 0x17790000#32)]).firstFault = some (.outOfRangeAddress .rn 14 0) := by decide

/-! ### The host (R46, R99, R102) -/

theorem test_load_too_long : (machine 2 [] []).load [1, 2, 3] = .error ⟨.load, 2⟩ := by decide
theorem test_second_load_refused :
    (((Session.construct ⟨4, 1, 2⟩).act (.load [1])).1.act (.load [2])).2 = .notAdmitted := by decide
/-- R46: after a refused load the machine is not started, and load is not called again (D15). -/
theorem test_refused_load_ends_it :
    ((Session.construct ⟨2, 0, 1⟩).run [.step, .load [1, 2, 3], .step, .load [1]]).2 =
      [.notAdmitted, .loadRefused ⟨.load, 2⟩, .notAdmitted, .notAdmitted] := by decide
/-- P6's second step: the fault is recorded with its pc0, and the step after it does not exist. -/
theorem test_fault_is_recorded :
    ((Session.act ⟨m256 [(0, 300#32), (13, 1#32)] [(1, 0x00080000#32)], .running⟩ .step).1.core.fault =
      some (.outOfRangeAddress .data 300 1)) := by decide
theorem test_fetch_word : (State.reset.withFetchWord 32 0x20010005).mem = [(0, 0x20010005#32)] := by decide
theorem test_first_step_from_reset : after (step (State.reset.withFetchWord 32 0x20010005)) (·.reg 0) =
    some 5#32 := by decide

/-! ### The assembler (§2.9, E2, E3, E6, E7) -/

theorem test_asm_labels_and_comments : assemble "HALT //c\n  // only\nx:\ny:\nMOV R0, x".toList =
    .ok ⟨[0x88000000#32, 0x20010001#32], [0, 4]⟩ := by decide
theorem test_asm_comma_split : assemble "loop: ADD R0,R0,R1\nB loop".toList =
    .ok ⟨[0x10000001#32, 0x30010000#32], [0, 1]⟩ := by decide
theorem test_asm_out_in_rn : assemble "OUT R3, R1".toList = .ok ⟨[0x99800001#32], [0]⟩ := by decide
theorem test_asm_inp_in_rd : assemble "INP R3, 2".toList = .ok ⟨[0x90190002#32], [0]⟩ := by decide
theorem test_asm_three_registers : assemble "ADD R12, PC, #1".toList = .ok ⟨[0x16E10001#32], [0]⟩ := by decide
theorem test_asm_hex : assemble "MOV R0,#0xFFFF".toList = .ok ⟨[0x2001FFFF#32], [0]⟩ := by decide
theorem test_asm_data_word : assemble "0xFFFFFFFF".toList = .ok ⟨[0xFFFFFFFF#32], [0]⟩ := by decide
theorem test_asm_duplicate_label : assemble "a: HALT\na: HALT".toList =
    .error ⟨.duplicateLabel ['a'] 0 1, 1, 1, "a: HALT".toList⟩ := by decide
theorem test_asm_unresolved : assemble "B nowhere".toList =
    .error ⟨.unresolvedOperand "nowhere".toList, 0, 0, "B nowhere".toList⟩ := by decide
theorem test_asm_arity : encodeUnit [] ["ADD".toList, "R0".toList, "R1".toList] =
    .error (.wrongArity .add .registerRegisterOperand2 2) := by decide
theorem test_asm_unknown_register : encodeUnit [] ["MOV".toList, "R0".toList, "R01".toList] =
    .error (.unknownRegister "R01".toList) := by decide
theorem test_asm_out_of_range : encodeUnit [] ["MOV".toList, "R0".toList, "#65536".toList] =
    .error (.operandOutOfRange "#65536".toList) := by decide
theorem test_asm_data_too_wide : encodeUnit [] ["4294967296".toList] =
    .error (.operandOutOfRange "4294967296".toList) := by decide
theorem test_asm_no_negative : encodeUnit [] ["MOV".toList, "R0".toList, "#-1".toList] =
    .error (.unresolvedOperand "#-1".toList) := by decide
theorem test_asm_hash_only_before_literals :
    encodeUnit [⟨"loop".toList, 1, 1⟩] ["MOV".toList, "R0".toList, "#loop".toList] =
      .error (.unresolvedOperand "#loop".toList) := by decide
theorem test_asm_lower_case : encodeUnit [] ["add".toList, "R0".toList, "R0".toList, "#1".toList] =
    .error (.unknownOpcode "add".toList) := by decide
theorem test_asm_data_no_hash : encodeUnit [] ["#5".toList] = .error (.unknownOpcode "#5".toList) := by decide
theorem test_asm_bad_label : assemble "1x: HALT".toList =
    .error ⟨.parseError "1x".toList, 0, 0, "1x: HALT".toList⟩ := by decide
theorem test_asm_register_label : assemble "R1: HALT".toList =
    .error ⟨.parseError "R1".toList, 0, 0, "R1: HALT".toList⟩ := by decide
theorem test_asm_end_label : parseLines 0 (sourceLines "HALT\nend:".toList) ⟨[], []⟩ =
    .ok ⟨[⟨0, "HALT".toList, ["HALT".toList]⟩], [⟨"end".toList, 1, 1⟩]⟩ := by decide

/-! ### Witnesses: for each statement with hypotheses, states and operands that meet them, at boundary values -/

/-- An immediate operand and a direct operand with their values, in every state. -/
theorem operandIs_immediate (s : State) (x : BitVec 16) : OperandIs s (.immediate x) (x.zeroExtend 32) :=
  .inl ⟨x, rfl, by simp; omega⟩

theorem operandIs_direct (s : State) (x : BitVec 16) (h : x.toNat < 14) :
    OperandIs s (.direct x) (xreg s ⟨x.toNat, h⟩) := .inr ⟨x, ⟨x.toNat, h⟩, rfl, rfl, rfl⟩

/-- EncodedAs, both parts: a word of ADD's pattern, with fields at their largest values. -/
theorem witness_encodedAs : 0x17F9FFFF#32 &&& 0xF8060000#32 = 0x10000000#32 ∧
    decode 0x17F9FFFF#32 = .ok (.add 15 15 (.immediate 0xFFFF)) := by decide

/-- FieldFaults: the three clauses at their first failing index, 14. -/
theorem witness_fieldFaults : 14 ≤ (14#16).toNat ∧ (Operand2.direct 13#16).inRange = true ∧
    14 ≤ (14#4).toNat ∧ (13#4).toNat < 14 := by decide

/-- EncodeOfDecodeIsTheWord. -/
theorem witness_decodes : decode 0x30790005#32 = .ok (.b 0 15 (.immediate 5)) := by decide

/-- EveryWordFallsIntoOneClass: the last legal opcode and mode and the first illegal ones. -/
theorem witness_classes :
    (20 ≤ (0xA0000000#32).toNat / 134217728) ∧
    ((0x9FFFFFFF#32).toNat / 134217728 < 20 ∧ 2 ≤ (0x9FFAFFFF#32).toNat / 65536 % 8) ∧
    ((0x9FF9FFFF#32).toNat / 134217728 < 20 ∧ (0x9FF9FFFF#32).toNat / 65536 % 8 < 2) := by decide

/-- UnusedFieldsAreIgnored: MOV with two different rn fields. -/
theorem witness_unused : (Opcode.mov.usesRn = true → (3#4) = 7#4) ∧ (Opcode.mov.usesRd = true → (1#4) = 1#4) := by
  decide

/-- DirectModeReadsTheNamedRegister: the last index that exists and the first that does not. -/
theorem witness_direct : (13#16).toNat = (13 : RegIdx).val ∧ 14 ≤ (14#16).toNat := by decide

/-- LdrLoadsTheAddressedWord: the last address that exists, and the first that does not, from a register. -/
theorem witness_ldr :
    (∃ (s : State) (o : Operand2) (a : Word) (d : RegIdx),
      OperandIs s o a ∧ (13#4).toNat = d.val ∧ a.toNat < s.params.memWords) ∧
    (∃ (s : State) (o : Operand2) (a : Word) (d : RegIdx),
      OperandIs s o a ∧ (0#4).toNat = d.val ∧ s.params.memWords ≤ a.toNat) :=
  ⟨⟨m256 [] [], .immediate 255, 255, 13, operandIs_immediate _ 255, by decide, by decide⟩,
   ⟨m256 [(1, 256#32)] [], .direct 1, xreg (m256 [(1, 256#32)] []) 1, 0, operandIs_direct _ 1 (by decide),
     by decide, by decide⟩⟩

/-- StrStoresTheRegister: the last address that exists, in a canonical memory, and the first that does not. -/
theorem witness_str :
    (∃ (s : State) (o : Operand2) (a : Word) (d : RegIdx),
      OperandIs s o a ∧ (13#4).toNat = d.val ∧ s.mem.wf = true ∧ a.toNat < s.params.memWords) ∧
    (∃ (s : State) (o : Operand2) (a : Word) (d : RegIdx),
      OperandIs s o a ∧ (0#4).toNat = d.val ∧ s.params.memWords ≤ a.toNat) :=
  ⟨⟨m256 [] [(3, 9#32)], .immediate 255, 255, 13, operandIs_immediate _ 255, by decide, by decide, by decide⟩,
   ⟨m256 [] [], .immediate 256, 256, 0, operandIs_immediate _ 256, by decide, by decide⟩⟩

/-- StoreThenLoadReturnsTheValue. -/
theorem witness_store_load : ∃ (s : State) (o : Operand2) (x : BitVec 16) (d d' : RegIdx),
    s.mem.wf = true ∧ OperandIs s o (BitVec.ofNat 32 x.toNat) ∧ x.toNat < s.params.memWords ∧
    (0#4).toNat = d.val ∧ (1#4).toNat = d'.val :=
  ⟨m256 [(0, 0x30#32)] [], .immediate 20, 20, 0, 1, by decide, operandIs_immediate _ 20, by decide, by decide,
    by decide⟩

/-- P5's second step moved next to its target: `STR R0, 1` at address 0, with the word of `MOV R1, #2` in R0. -/
def storesNext : State := m256 [(0, 0x20090002#32)] [(0, 0x08010001#32)]

/-- StoredWordIsExecutedByTheNextStep. -/
theorem witness_stored_word :
    storesNext.fault = none ∧ storesNext.halted = false ∧ storesNext.mem.wf = true ∧
    storesNext.pc.toNat < storesNext.params.memWords ∧
    decode (storesNext.mem.read storesNext.pc.toNat) = .ok (.str 0 0 (.immediate 1)) ∧
    OperandIs storesNext (.immediate 1) (storesNext.pc + 1#32) ∧
    (storesNext.pc + 1#32).toNat < storesNext.params.memWords ∧ (0#4).toNat = (0 : RegIdx).val ∧
    decode (xreg storesNext 0) = .ok (.mov 0 1 (.immediate 2)) :=
  ⟨rfl, rfl, by decide, by decide, by decide, .inl ⟨1, rfl, by decide⟩, by decide, by decide, by decide⟩

/-- MemoryReadGivesTheLatestWrite: both sides of the end of memory. -/
theorem witness_memory : (machine 4 [] []).params.memWords ≤ 4 ∧ 3 < (machine 4 [] []).params.memWords ∧
    (machine 4 [] []).mem.wf = true := by decide

/-- OnlyFetchLdrAndStrReachMemory: an STR, an LDR and an ADD that complete, and a memory that agrees at one word. -/
theorem witness_reach_memory :
    (∃ t, exec (.str 0 0 (.immediate 20)) (m256 [(0, 9#32)] []) = .next t) ∧
    OperandIs (m256 [(0, 9#32)] []) (.immediate 20) 20 ∧
    (∃ t, exec (.ldr 0 0 (.immediate 20)) (m256 [] [(20, 7#32)]) = .next t) ∧
    Mem.read [(20, 7#32), (21, 1#32)] 20 = (m256 [] [(20, 7#32)]).mem.read 20 ∧
    (∃ t, exec (.add 0 0 (.immediate 20)) (m256 [] []) = .next t) ∧
    Mem.read [(0, 5#32)] (m256 [] [(0, 5#32)]).pc.toNat =
      (m256 [] [(0, 5#32)]).mem.read (m256 [] [(0, 5#32)]).pc.toNat :=
  ⟨⟨_, rfl⟩, operandIs_immediate _ 20, ⟨_, rfl⟩, by decide, ⟨_, rfl⟩, by decide⟩

/-- WritesFromRnAndOp2 and WritesFromOp2: the pc as both sources and as the destination; a shift amount of 32. -/
theorem witness_alu : ∃ (s : State) (o : Operand2) (b : Word) (n d : RegIdx),
    OperandIs s o b ∧ (13#4).toNat = n.val ∧ (13#4).toNat = d.val ∧ b.toNat = 32 :=
  ⟨m256 [(13, 31#32)] [], .direct 13, xreg (m256 [(13, 31#32)] []) 13, 13, 13, operandIs_direct _ 13 (by decide),
    by decide, by decide, by decide⟩

/-- CmpSetsTheExactDifference and BranchAfterCmpComparesUnsigned: 0 against the largest value. -/
theorem witness_cmp : ∃ (s : State) (o : Operand2) (b : Word) (n : RegIdx),
    OperandIs s o b ∧ (0#4).toNat = n.val ∧ b = 0xFFFFFFFF#32 :=
  ⟨m256 [(1, 0xFFFFFFFF#32)] [], .direct 1, xreg (m256 [(1, 0xFFFFFFFF#32)] []) 1, 0,
    operandIs_direct _ 1 (by decide), by decide, by decide⟩

/-- BranchesGoToOp2ExactlyWhenTaken: each of the three signs of `cmp`, at the ends of its range. -/
theorem witness_branches :
    OperandIs (m256 [] []) (.immediate 5) 5 ∧ (m256 [] []).cmp = 0 ∧
    0 < ((m256 [] []).setCmp 4294967295).cmp ∧ ((m256 [] []).setCmp (-4294967295)).cmp < 0 :=
  ⟨operandIs_immediate _ 5, by decide, by decide, by decide⟩

/-- OnlyCmpWritesCmpOnlyBranchesReadIt: CMP and MOV complete, OUT faults, INP waits. -/
theorem witness_cmp_frame :
    (∃ t, exec (.cmp 0 0 (.immediate 1)) (m256 [] []) = .next t) ∧
    (∃ t, exec (.mov 0 0 (.immediate 1)) (m256 [] []) = .next t) ∧
    (∃ f, exec (.out 0 0 (.immediate 9)) (m256 [] []) = .fault f) ∧
    (∃ r, exec (.inp 0 0 (.immediate 9)) (m256 [] []) = .refused r) :=
  ⟨⟨_, rfl⟩, ⟨_, rfl⟩, ⟨_, rfl⟩, ⟨_, rfl⟩⟩

/-- HaltSetsHaltedOnly: the assembler's HALT, whose direct operand 0 is resolved. -/
theorem witness_halt : ∃ s : State, OperandIs s (.direct 0) (xreg s 0) ∧ s.fault = none :=
  ⟨m256 [] [], operandIs_direct _ 0 (by decide), rfl⟩

/-- HaltedIsSetByHaltAndNeverCleared and StepAfterHaltChangesOnlyTheRecord. -/
theorem witness_halted :
    (∃ t, exec (.halt 0 0 (.direct 0)) (m256 [] []) = .next t) ∧
    ∃ x : Session, x.phase = .running ∧ x.core.halted = true ∧ x.core.fault = none :=
  ⟨⟨_, rfl⟩, ⟨⟨(m256 [] []).halt, .running⟩, rfl, rfl, rfl⟩⟩

/-- InpTakesOneLineOrWaits: an empty line waiting, and none. -/
theorem witness_inp :
    (∃ (s : State) (v : Word), OperandIs s (.immediate 2) v ∧ s.input = [] :: []) ∧
    (∃ (s : State) (v : Word), OperandIs s (.immediate 2) v ∧ s.input = []) :=
  ⟨⟨(m256 [] []).supplyLine [], 2, operandIs_immediate _ 2, rfl⟩, ⟨m256 [] [], 2, operandIs_immediate _ 2, rfl⟩⟩

/-- OutAppendsTheSelectedRendering: each selector, the largest character and the value after it, and no selector. -/
theorem witness_out :
    (∃ (s : State) (n : RegIdx), (1 : Word) = s.params.devDec ∧ OperandIs s (.immediate 1) 1 ∧ (0#4).toNat = n.val) ∧
    (∃ (s : State) (n : RegIdx) (c : CodePoint), OperandIs s (.immediate 2) 2 ∧ (0#4).toNat = n.val ∧
      (2 : Word) ≠ s.params.devDec ∧ (2 : Word) = s.params.devChr ∧ c.val = (xreg s n).toNat ∧ c.val = 0x10FFFF) ∧
    (∃ (s : State) (n : RegIdx), OperandIs s (.immediate 2) 2 ∧ (0#4).toNat = n.val ∧
      (2 : Word) ≠ s.params.devDec ∧ (2 : Word) = s.params.devChr ∧ 0x10FFFF < (xreg s n).toNat) ∧
    (∃ (s : State) (n : RegIdx), OperandIs s (.immediate 3) 3 ∧ (0#4).toNat = n.val ∧
      (3 : Word) ≠ s.params.devDec ∧ (3 : Word) ≠ s.params.devChr) :=
  ⟨⟨m256 [] [], 0, by decide, operandIs_immediate _ 1, by decide⟩,
   ⟨m256 [(0, 0x10FFFF#32)] [], 0, 0x10FFFF, operandIs_immediate _ 2, by decide, by decide, by decide, by decide,
     by decide⟩,
   ⟨m256 [(0, 0x110000#32)] [], 0, operandIs_immediate _ 2, by decide, by decide, by decide, by decide⟩,
   ⟨m256 [] [], 0, operandIs_immediate _ 3, by decide, by decide, by decide⟩⟩

/-- OutputOnlyGrowsAndIsNeverRead: a step that completes, one that faults, one that waits. -/
theorem witness_output :
    (∃ t, step (m256 [] [(0, 0x98010001#32)]) = .next t) ∧ (∃ f, step (m256 [] [(0, 0x98010063#32)]) = .fault f) ∧
    (∃ r, step (m256 [] [(0, 0x90010002#32)]) = .refused r) := ⟨⟨_, rfl⟩, ⟨_, rfl⟩, ⟨_, rfl⟩⟩

/-- StepRunsTheDecodedInstruction and PlacedWordIsTheNextInstruction. -/
theorem witness_step :
    State.reset.fault = none ∧ State.reset.halted = false ∧ State.reset.mem.wf = true ∧
    State.reset.pc.toNat < State.reset.params.memWords ∧
    decode (State.reset.mem.read State.reset.pc.toNat) = .ok (.ldr 0 0 (.direct 0)) ∧
    decodeTableWord 32 0x88000000 = some (.halt 0 0 (.direct 0)) :=
  ⟨rfl, rfl, by decide, by decide, by decide, by decide⟩

/-- ControlSignalsBoundTheEffects: an instruction that completes. -/
theorem witness_controls : ∃ t, exec (.mov 0 3 (.immediate 1)) (m256 [] []) = .next t := ⟨_, rfl⟩

/-- ControlSignalsBoundTheEffects, the clause on memory: a store to the last word of a canonical memory. -/
theorem witness_controls_store : Opcode.str.controls.memWe = true ∧ (m256 [(0, 9#32)] [(3, 1#32)]).mem.wf = true ∧
    OperandIs (m256 [(0, 9#32)] [(3, 1#32)]) (.immediate 255) 255 ∧
    ∃ t, exec (.str 0 0 (.immediate 255)) (m256 [(0, 9#32)] [(3, 1#32)]) = .next t :=
  ⟨rfl, by decide, operandIs_immediate _ 255, ⟨_, rfl⟩⟩

/-- DecimalRenderingReadsBack: the only rendering that begins with 0. -/
theorem witness_dec_zero : (decText 0#32).head? = some 48 := by decide

/-- InvariantHoldsAfterConstruction and the session statements: the smallest legal parameters. -/
theorem witness_params : (⟨1, 0, 1⟩ : Params).wf := by decide

/-- EveryStepKeepsTheInvariant. -/
theorem witness_inv : (m256 [(0, 9#32)] [(0, 0x080100FF#32)]).Inv ∧
    ∃ t, step (m256 [(0, 9#32)] [(0, 0x080100FF#32)]) = .next t := ⟨by decide, ⟨_, rfl⟩⟩

/-- FaultingStepLeavesOnlyTheRecord: a session whose step faults. -/
theorem witness_faulting : ∃ (x y : Session) (f : Fault), x.act .step = (y, .faulted f) :=
  ⟨⟨m256 [] [(0, 0xA0000000#32)], .loaded⟩, _, _, rfl⟩

/-- FaultRecordIsFinal: a session with a recorded fault. -/
theorem witness_recorded : ∃ x : Session, x.core.fault.isSome = true ∧ x.phase ≠ .constructed :=
  ⟨⟨(m256 [] []).afterFault (.illegalOpcode 20 0), .running⟩, rfl, by decide⟩

/-- HostActionsAreAdmittedInOrder: each phase, with a step that completes, one that faults, one that waits and one that
does not exist. -/
theorem witness_order :
    (∃ t, step (m256 [] []) = .next t) ∧ (∃ f, step (m256 [] [(0, 0xA0000000#32)]) = .fault f) ∧
    step (m256 [] [(0, 0x90010002#32)]) = .refused .awaitingInput ∧
    step ((m256 [] []).afterFault (.illegalOpcode 20 0)) = .refused .runOver ∧
    (∀ image, HostAction.load image ∉ [HostAction.step, HostAction.supplyLine []]) ∧
    (⟨State.reset, .notStarted⟩ : Session).phase ≠ .constructed :=
  ⟨⟨_, rfl⟩, ⟨_, rfl⟩, rfl, rfl, by simp, by decide⟩

/-- LoadPlacesTheImageOrRefuses and HostActionsAreAdmittedInOrder: an image of exactly the memory's size, and one word more. -/
theorem witness_load : ([1, 2] : List Word).length ≤ (⟨2, 0, 1⟩ : Params).memWords ∧
    (⟨2, 0, 1⟩ : Params).memWords < ([1, 2, 3] : List Word).length := by decide

/-- WrongOperandCountIsWrongArity: HALT with one operand, and with none. -/
theorem witness_arity : (["R0".toList] : List Text).length ≠ operandCount .halt ∧
    ([] : List Text).length = operandCount .halt := by decide

/-- AssembledImmediateIsNotTruncated: the largest immediate, and the largest label address. -/
theorem witness_immediate : resolveToken [] "#65535".toList = .ok (.immediate 65535) ∧
    resolveToken [⟨"x".toList, 65535, 0⟩] "x".toList = .ok (.immediate 65535) := by decide

/-- AssembledInstructionDecodesBack. -/
theorem witness_assembled : mnemonic? "B".toList = some .b ∧
    encodeUnit [] ["B".toList, "PC".toList] = .ok 0x3000000D#32 := by decide

/-- AssembledWordsComeFromTheirLines. -/
theorem witness_assembly : ∃ a, assemble "x:\n0x10\n7".toList = .ok a ∧ a.image[1]? = some 7#32 :=
  ⟨⟨[16#32, 7#32], [1, 2]⟩, by decide, by decide⟩

/-- LabelsNameTheNextUnit and SecondDefinitionIsDuplicateLabel. -/
theorem witness_labels : ∃ p l, parseLines 0 ["a:".toList, "HALT".toList] ⟨[], []⟩ = .ok p ∧ l ∈ p.labels ∧
    (tokenize "a: 5".toList).label = some "a".toList ∧ labelNameOk "a".toList = true ∧
    findLabel p.labels "a".toList = some l :=
  ⟨⟨[⟨1, "HALT".toList, ["HALT".toList]⟩], [⟨"a".toList, 0, 0⟩]⟩, ⟨"a".toList, 0, 0⟩, by decide, by decide,
    by decide, by decide, by decide⟩

end Sys2Proof.Tests
end

/-! ### What a completed instruction leaves -/

namespace Sys2Proof.Machine

theorem State.portS_eq_regs (s : State) : ∃ r, s.portS = { s with regs := r } := ⟨_, rfl⟩

theorem State.portS_portE_eq_regs (s : State) (i : RegIdx) (v : Word) :
    ∃ r, s.portS.portE i v = { s with regs := r } := ⟨_, rfl⟩

theorem aluRegister_next_regs {op : AluOp} {rn rd : BitVec 4} {o : Operand2} {s t : State}
    (h : aluRegister op rn rd o s = .next t) : ∃ r, t = { s with regs := r } := by
  obtain ⟨_, _, _, _, _, _, rfl⟩ := aluRegister_next h
  exact s.portS_portE_eq_regs _ _

theorem aluMove_next_regs {op : AluOp} {rd : BitVec 4} {o : Operand2} {s t : State}
    (h : aluMove op rd o s = .next t) : ∃ r, t = { s with regs := r } := by
  obtain ⟨_, _, _, _, rfl⟩ := aluMove_next h
  exact s.portS_portE_eq_regs _ _

theorem branch_next_regs {op : Opcode} {o : Operand2} {s t : State}
    (h : branch op o s = .next t) : ∃ r, t = { s with regs := r } := by
  obtain ⟨_, _, ⟨_, rfl⟩ | ⟨_, rfl⟩⟩ := branch_next h
  · exact s.portS_portE_eq_regs _ _
  · exact s.portS_eq_regs

/-- The effect of a completed instruction apart from the registers, by its opcode (R64, R98): none but for STR, CMP,
HALT, INP and OUT, each of which changes one more part of the state. -/
theorem exec_next_cases {i : Instr} {s t : State} (h : exec i s = .next t) :
    ∃ r,
      (i.opcode ∉ [Opcode.str, .cmp, .halt, .inp, .out] ∧ t = { s with regs := r }) ∨
      (i.opcode = .str ∧ ∃ m, t = { s with regs := r, mem := m }) ∨
      (i.opcode = .cmp ∧ ∃ d, t = { s with regs := r, cmp := d }) ∨
      (i.opcode = .halt ∧ t = { s with regs := r, halted := true }) ∨
      (i.opcode = .inp ∧ ∃ line rest, s.input = line :: rest ∧ t = { s with regs := r, input := rest }) ∨
      (i.opcode = .out ∧ ∃ c, t = { s with regs := r, output := s.output ++ c }) := by
  cases i with
  | ldr rn rd o =>
    obtain ⟨_, _, _, _, _, rfl⟩ := execLdr_next h
    exact ⟨_, .inl ⟨by simp [Instr.opcode], rfl⟩⟩
  | add rn rd o | sub rn rd o | and rn rd o | orr rn rd o | eor rn rd o | lsl rn rd o | lsr rn rd o =>
    obtain ⟨r, rfl⟩ := aluRegister_next_regs h
    exact ⟨r, .inl ⟨by simp [Instr.opcode], rfl⟩⟩
  | mov rn rd o | mvn rn rd o =>
    obtain ⟨r, rfl⟩ := aluMove_next_regs h
    exact ⟨r, .inl ⟨by simp [Instr.opcode], rfl⟩⟩
  | b rn rd o =>
    obtain ⟨r, rfl⟩ := branch_next_regs (op := .b) h
    exact ⟨r, .inl ⟨by simp [Instr.opcode], rfl⟩⟩
  | beq rn rd o | bne rn rd o | bgt rn rd o | blt rn rd o =>
    obtain ⟨r, rfl⟩ := branch_next_regs h
    exact ⟨r, .inl ⟨by simp [Instr.opcode], rfl⟩⟩
  | str rn rd o =>
    obtain ⟨_, _, _, _, _, rfl⟩ := execStr_next h
    exact ⟨_, .inr (.inl ⟨rfl, _, rfl⟩)⟩
  | cmp rn rd o =>
    obtain ⟨_, _, _, _, rfl⟩ := execCmp_next h
    exact ⟨_, .inr (.inr (.inl ⟨rfl, _, rfl⟩))⟩
  | halt rn rd o =>
    obtain ⟨_, _, rfl⟩ := execHalt_next h
    exact ⟨_, .inr (.inr (.inr (.inl ⟨rfl, rfl⟩)))⟩
  | inp rn rd o =>
    obtain ⟨_, line, rest, _, hi, rfl⟩ := execInp_next h
    exact ⟨_, .inr (.inr (.inr (.inr (.inl ⟨rfl, line, rest, hi, rfl⟩))))⟩
  | out rn rd o =>
    obtain ⟨_, _, c, _, _, rfl, _⟩ := execOut_next h
    exact ⟨_, .inr (.inr (.inr (.inr (.inr ⟨rfl, c, rfl⟩))))⟩

/-! ### The halted flag (R27) -/

theorem exec_next_halted {i : Instr} {s t : State} (h : exec i s = .next t) :
    t.halted = (s.halted || decide (i.opcode = .halt)) := by
  obtain ⟨r, ⟨ho, rfl⟩ | ⟨ho, m, rfl⟩ | ⟨ho, d, rfl⟩ | ⟨ho, rfl⟩ | ⟨ho, line, rest, _, rfl⟩ | ⟨ho, c, rfl⟩⟩ :=
    exec_next_cases h
  case inl =>
    have hne : i.opcode ≠ .halt := fun e => ho (by simp [e])
    simp [hne]
  all_goals simp [ho]

theorem step_of_halted {s : State} (hf : s.fault = none) (hh : s.halted = true) :
    step s = .fault (.haltedStep s.pc) := by
  simp [step, fetchInstr, hf, hh]

theorem step_next_halted_false {s t : State} (h : step s = .next t) : s.halted = false := by
  obtain ⟨_, hi, _⟩ := step_next h
  obtain ⟨_, hh, _, _⟩ := fetchInstr_next hi
  exact hh

theorem State.load_ok {s t : State} {image : List Word} (h : s.load image = .ok t) :
    t = { s with mem := s.mem.writeImage 0 image } := by
  unfold State.load at h
  split at h <;> cases h
  rfl

/-- No host action clears `halted`: a faulting step, a load and a supplied line leave it, and a step that completes
was not begun with it set. -/
theorem Session.act_keeps_halted (x : Session) (a : HostAction) (h : x.core.halted = true) :
    (x.act a).1.core.halted = true := by
  obtain he | ⟨line, _, he⟩ | ⟨image, s, _, _, hl, he⟩ | ⟨image, r, _, _, _, he⟩ | ⟨s, _, _, hs, _⟩ | ⟨f, _, _, _, he⟩ :=
    x.act_cases a
  · rw [he, h]
  · simp [he, h]
  · rw [he, State.load_ok hl, h]
  · rw [he, h]
  · rw [step_next_halted_false hs] at h
    cases h
  · simp [he, h]

end Sys2Proof.Machine

namespace Sys2Proof.Claims

open Sys2Proof.Machine

/-- Settles O23: the flag after an instruction, the flag kept by every host action and so by every sequence of them,
the step of a halted machine, and the observed flag. -/
theorem haltedIsSetByHaltAndNeverCleared : Obligations.HaltedIsSetByHaltAndNeverCleared :=
  ⟨fun _ _ _ h => exec_next_halted h,
   fun x acts h => Session.run_keeps (P := fun y => y.core.halted = true) Session.act_keeps_halted acts x h,
   fun _ hf hh => step_of_halted hf hh,
   fun _ => rfl⟩

end Sys2Proof.Claims

/-! ### Memory as an input of a step (R38) -/

namespace Sys2Proof.Machine

/-- The same outcome, the memory of a next state replaced by `m`. -/
def Res.withMem (m : Mem) : Res → Res
  | .next t => .next { t with mem := m }
  | .fault f => .fault f
  | .refused r => .refused r

@[simp] theorem Res.withMem_next (m : Mem) (t : State) : Res.withMem m (.next t) = .next { t with mem := m } := rfl

section
variable {s : State} {m : Mem}

theorem State.pc_mem_irrel : ({ s with mem := m } : State).pc = s.pc := rfl

theorem State.reg_mem_irrel (i : RegIdx) : ({ s with mem := m } : State).reg i = s.reg i := rfl

theorem resolve_portS_mem_irrel (o : Operand2) :
    resolve ({ s with mem := m } : State).portS o = resolve s.portS o := by
  cases o <;> rfl

theorem State.memRead_mem_congr {a : Nat} (h : m.read a = s.mem.read a) :
    ({ s with mem := m } : State).memRead a = s.memRead a := by
  simp only [State.memRead, h]

/-- Operand2 resolution does not see memory: an arm that commutes with a replaced memory does so inside it. -/
theorem withOp2_withMem {o : Operand2} {k k' : Word → State → Res}
    (h : ∀ v, resolve s.portS o = some v → k' v { s.portS with mem := m } = Res.withMem m (k v s.portS)) :
    withOp2 o { s with mem := m } k' = Res.withMem m (withOp2 o s k) := by
  cases hv : resolve s.portS o with
  | none => rw [withOp2_none hv, withOp2_none ((resolve_portS_mem_irrel o).trans hv)]; rfl
  | some v => rw [withOp2_some hv, withOp2_some ((resolve_portS_mem_irrel o).trans hv)]; exact h v hv

theorem withField_withMem {w : Which} {f : BitVec 4} {k k' : RegIdx → Res}
    (h : ∀ i, k' i = Res.withMem m (k i)) :
    withField w f { s with mem := m } k' = Res.withMem m (withField w f s k) := by
  unfold withField
  cases regIdx? f.toNat with
  | none => rfl
  | some i => exact h i

/-! The arms that leave memory alone and do not read it: on another memory the same outcome. -/

theorem aluRegister_withMem (op : AluOp) (rn rd : BitVec 4) (o : Operand2) :
    aluRegister op rn rd o { s with mem := m } = Res.withMem m (aluRegister op rn rd o s) :=
  withOp2_withMem fun _ _ => withField_withMem fun _ => withField_withMem fun _ => rfl

theorem aluMove_withMem (op : AluOp) (rd : BitVec 4) (o : Operand2) :
    aluMove op rd o { s with mem := m } = Res.withMem m (aluMove op rd o s) :=
  withOp2_withMem fun _ _ => withField_withMem fun _ => rfl

theorem branch_withMem (op : Opcode) (o : Operand2) :
    branch op o { s with mem := m } = Res.withMem m (branch op o s) := by
  refine withOp2_withMem fun v _ => ?_
  simp only [branchLogic, State.portS_cmp]
  cases branchTaken op.controls.brCond s.cmp <;> rfl

theorem execCmp_withMem (rn : BitVec 4) (o : Operand2) :
    execCmp rn o { s with mem := m } = Res.withMem m (execCmp rn o s) :=
  withOp2_withMem fun _ _ => withField_withMem fun _ => rfl

theorem execHalt_withMem (o : Operand2) : execHalt o { s with mem := m } = Res.withMem m (execHalt o s) :=
  withOp2_withMem fun _ _ => rfl

theorem execInp_withMem (o : Operand2) : execInp o { s with mem := m } = Res.withMem m (execInp o s) := by
  refine withOp2_withMem fun _ _ => ?_
  simp only [State.inTake, State.portS_input]
  cases s.input <;> rfl

theorem execOut_withMem (rn : BitVec 4) (o : Operand2) :
    execOut rn o { s with mem := m } = Res.withMem m (execOut rn o s) := by
  refine withOp2_withMem fun v _ => withField_withMem fun n => ?_
  by_cases hd : v = s.params.devDec
  · simp only [if_pos hd]; rfl
  by_cases hc : v = s.params.devChr
  · simp only [if_neg hd, if_pos hc, State.reg_mem_irrel]
    cases chrText (s.portS.reg n) <;> rfl
  · simp only [if_neg hd, if_neg hc]; rfl

/-- The one arm that reads memory: it depends on the word at `op2`. -/
theorem execLdr_withMem {rd : BitVec 4} {o : Operand2}
    (h : ∀ v, resolve s.portS o = some v → m.read v.toNat = s.mem.read v.toNat) :
    execLdr rd o { s with mem := m } = Res.withMem m (execLdr rd o s) := by
  refine withOp2_withMem fun v hv => withField_withMem fun d => ?_
  have hr : ({ s.portS with mem := m } : State).memRead v.toNat = s.portS.memRead v.toNat :=
    State.memRead_mem_congr (h v hv)
  rw [hr]
  cases s.portS.memRead v.toNat <;> rfl

/-- STR on operands that exist. -/
theorem execStr_eq {rd : BitVec 4} {o : Operand2} {v : Word} {d : RegIdx} (hv : resolve s.portS o = some v)
    (hd : d.val = rd.toNat) (ha : v.toNat < s.params.memWords) :
    execStr rd o s = .next { s.portS with mem := s.mem.write v.toNat (s.portS.reg d) } := by
  have hlt : rd.toNat < 14 := hd ▸ d.isLt
  obtain rfl : d = ⟨rd.toNat, hlt⟩ := Fin.ext hd
  simp [execStr, withOp2_some hv, withField_lt hlt, State.memWrite, ha]

/-- An instruction other than LDR and STR has on another memory the same outcome, faults and waits included. -/
theorem exec_withMem {i : Instr} (hl : i.opcode ≠ .ldr) (hs : i.opcode ≠ .str) :
    exec i { s with mem := m } = Res.withMem m (exec i s) := by
  cases i with
  | ldr => exact absurd rfl hl
  | str => exact absurd rfl hs
  | add | sub | and | orr | eor | lsl | lsr => exact aluRegister_withMem ..
  | mov | mvn => exact aluMove_withMem ..
  | b => exact branch_withMem .b _
  | beq | bne | bgt | blt => exact branch_withMem ..
  | cmp => exact execCmp_withMem ..
  | halt => exact execHalt_withMem _
  | inp => exact execInp_withMem _
  | out => exact execOut_withMem ..

theorem fetchInstr_mem_congr (h : m.read s.pc.toNat = s.mem.read s.pc.toNat) :
    fetchInstr { s with mem := m } = fetchInstr s := by
  simp only [fetchInstr, State.pc_mem_irrel, State.memRead_mem_congr h]

/-- Only STR writes memory. -/
theorem exec_next_mem {i : Instr} {t : State} (h : exec i s = .next t) (hs : i.opcode ≠ .str) : t.mem = s.mem := by
  obtain ⟨r, ⟨_, rfl⟩ | ⟨ho, _⟩ | ⟨_, d, rfl⟩ | ⟨_, rfl⟩ | ⟨_, line, rest, _, rfl⟩ | ⟨_, c, rfl⟩⟩ :=
    exec_next_cases h
  case inr.inl => exact absurd ho hs
  all_goals rfl

end

end Sys2Proof.Machine

namespace Sys2Proof.Claims

open Sys2Proof.Machine

theorem portS_reg_eq_xreg (s : State) (i : RegIdx) : s.portS.reg i = xreg s i := s.reg_setReg pcIdx i _

theorem OperandIs.resolve_eq {s : State} {o : Operand2} {a : Word} (h : OperandIs s o a) :
    resolve s.portS o = some a := by
  obtain ⟨x, rfl, ha⟩ | ⟨x, i, rfl, hx, rfl⟩ := h
  · have hx : x.toNat < 4294967296 := Nat.lt_trans x.isLt (by decide)
    rw [resolve_immediate, Option.some_inj, ← BitVec.toNat_inj, ha]
    exact (BitVec.toNat_setWidth 32 x).trans (Nat.mod_eq_of_lt hx)
  · have hlt : x.toNat < 14 := hx ▸ i.isLt
    obtain rfl : i = ⟨x.toNat, hlt⟩ := Fin.ext hx.symm
    rw [resolve_direct hlt, portS_reg_eq_xreg]

/-- STR's frame in memory: every word but the one at `op2` reads as before. -/
theorem execStr_read_other {rd : BitVec 4} {o : Operand2} {s t : State} {a : Word} {b : Nat}
    (h : execStr rd o s = .next t) (hw : s.mem.wf = true) (ha : OperandIs s o a) (hb : b ≠ a.toNat) :
    t.mem.read b = s.mem.read b := by
  obtain ⟨v, d, hv, _, _, rfl⟩ := execStr_next h
  obtain rfl : v = a := Option.some.inj (hv.symm.trans ha.resolve_eq)
  exact (Mem.read_write hw _ b _).trans (if_neg hb)

/-- STR depends on no word of memory: on another memory it completes too, and but for memory in the same state. -/
theorem execStr_mem_irrel {rd : BitVec 4} {o : Operand2} {s t : State} (h : execStr rd o s = .next t) (m : Mem) :
    ∃ u, execStr rd o { s with mem := m } = .next u ∧ { u with mem := t.mem } = t := by
  obtain ⟨v, d, hv, hd, ha, rfl⟩ := execStr_next h
  have hv' : resolve ({ s with mem := m } : State).portS o = some v := (resolve_portS_mem_irrel o).trans hv
  exact ⟨_, execStr_eq hv' hd ha, rfl⟩

/-- LDR depends on the word at `op2` only. -/
theorem execLdr_mem_congr {rd : BitVec 4} {o : Operand2} {s t : State} {m : Mem} {a : Word}
    (h : execLdr rd o s = .next t) (ha : OperandIs s o a) (hm : m.read a.toNat = s.mem.read a.toNat) :
    execLdr rd o { s with mem := m } = .next { t with mem := m } := by
  have hread : ∀ v, resolve s.portS o = some v → m.read v.toNat = s.mem.read v.toNat := fun v hv => by
    obtain rfl : v = a := Option.some.inj (hv.symm.trans ha.resolve_eq)
    exact hm
  rw [execLdr_withMem hread, h, Res.withMem_next]

/-- Settles O15, clause by clause: what a completed instruction leaves of memory, STR's frame, the outcome of an
instruction on another memory (all others, LDR, STR), and fetch. -/
theorem onlyFetchLdrAndStrReachMemory : Obligations.OnlyFetchLdrAndStrReachMemory := by
  refine ⟨fun i s t h => ⟨exec_next_mem h, ?_, ?_, ?_, ?_⟩, fun _ _ hm => fetchInstr_mem_congr hm⟩
  · intro hi hw a ha b hb
    cases i <;> cases hi
    exact execStr_read_other h hw ha hb
  · intro hl hs m
    rw [exec_withMem hl hs, h, Res.withMem_next]
  · intro hi m a ha hm
    cases i <;> cases hi
    exact execLdr_mem_congr h ha hm
  · intro hi m
    cases i <;> cases hi
    exact execStr_mem_irrel h m

end Sys2Proof.Claims

/-! ### Operand2 in direct mode (R60) -/

namespace Sys2Proof.Machine

/-! Every arm of the dispatch is the step's common part around the rest of its instruction: port S and operand2
resolution come before anything that depends on the opcode (R62, R95, D6). -/

theorem aluRegister_eq_withOp2 (op : AluOp) (rn rd : BitVec 4) (o : Operand2) (s : State) :
    ∃ k, aluRegister op rn rd o s = withOp2 o s k := ⟨_, rfl⟩

theorem aluMove_eq_withOp2 (op : AluOp) (rd : BitVec 4) (o : Operand2) (s : State) :
    ∃ k, aluMove op rd o s = withOp2 o s k := ⟨_, rfl⟩

theorem branch_eq_withOp2 (op : Opcode) (o : Operand2) (s : State) :
    ∃ k, branch op o s = withOp2 o s k := ⟨_, rfl⟩

theorem exec_eq_withOp2 (i : Instr) (s : State) : ∃ k, exec i s = withOp2 i.op2 s k := by
  cases i with
  | add | sub | and | orr | eor | lsl | lsr => exact aluRegister_eq_withOp2 ..
  | mov | mvn => exact aluMove_eq_withOp2 ..
  | b => exact branch_eq_withOp2 .b ..
  | beq | bne | bgt | blt => exact branch_eq_withOp2 ..
  | ldr | str | cmp | halt | inp | out => simp only [exec]; exact ⟨_, rfl⟩

/-- An operand that names no register is the fault of the instruction, whatever its other fields hold. -/
theorem exec_of_inRange_false {i : Instr} (s : State) (h : i.op2.inRange = false) :
    exec i s = .fault (.outOfRangeAddress .operand2 i.op2.raw.toNat s.pc) := by
  obtain ⟨k, hk⟩ := exec_eq_withOp2 i s
  have hnone : resolve s.portS i.op2 = none := (resolve_none_iff _ _).2 h
  rw [hk, withOp2_none hnone]

end Sys2Proof.Machine

namespace Sys2Proof

theorem Operand2.inRange_direct_of_ge {x : BitVec 16} (h : 14 ≤ x.toNat) : (Operand2.direct x).inRange = false :=
  decide_eq_false (Nat.not_lt.2 h)

end Sys2Proof

namespace Sys2Proof.Claims

open Sys2Proof.Machine

/-- Settles O8: the resolved register, and the fault on an index of 14 or more. The fault needs neither of the two
hypotheses on the opcode, for HALT and INP resolve their operand too (D6). -/
theorem directModeReadsTheNamedRegister : Obligations.DirectModeReadsTheNamedRegister := by
  refine ⟨fun s x i hx => ?_, fun op rn rd x s _ _ hx => ?_⟩
  · have hop : OperandIs s (.direct x) (xreg s i) := .inr ⟨x, i, rfl, hx, rfl⟩
    exact hop.resolve_eq
  · have hop : (op.instr rn rd (.direct x)).op2.inRange = false := by
      rw [Opcode.instr_op2, Operand2.inRange_direct_of_ge hx]
    rw [exec_of_inRange_false s hop, Opcode.instr_op2, Operand2.raw]

/-! ### Field extraction (R54) -/

/-- Settles O1, field by field. The opcode is the topmost field, so that the quotient of a 32-bit word is already
below `2^5`. -/
theorem unpackExtractsTheFieldBits : Obligations.UnpackExtractsTheFieldBits := by
  intro w
  refine ⟨?_, unpack_rn_toNat w, unpack_rd_toNat w, unpack_mode_toNat w, unpack_operand2_toNat w⟩
  have hlt : w.toNat / 2 ^ 27 < 2 ^ 5 := Nat.div_lt_of_lt_mul w.isLt
  exact (unpack_opcode_toNat w).trans (Nat.mod_eq_of_lt hlt)

end Sys2Proof.Claims

/-! ### Operand counts and the errors of an instruction unit (R79, R80, R82, R85) -/

namespace Sys2Proof

/-- How many operand tokens the assembler takes for a shape. -/
def Shape.operandCount : Shape → Nat
  | .none => 0
  | .addressOnly => 1
  | .registerAddress | .registerOperand2 | .registerOperand2NoDestination => 2
  | .registerRegisterOperand2 => 3

end Sys2Proof

namespace Sys2Proof.Machine

section
variable {labels : List Label} {t : Text} {e : AsmErrorKind}

theorem registerField_error (h : registerField t = .error e) : e = .unknownRegister t := by
  unfold registerField at h
  split at h <;> cases h
  rfl

theorem immediateField_error {v : Nat} (h : immediateField t v = .error e) : e = .operandOutOfRange t := by
  unfold immediateField at h
  split at h <;> cases h
  rfl

theorem resolveToken_error (h : resolveToken labels t = .error e) :
    e = .unknownRegister t ∨ e = .unresolvedOperand t ∨ e = .operandOutOfRange t := by
  unfold resolveToken at h
  split at h
  · cases h
  · split at h
    · cases h
      exact .inl rfl
    · split at h
      · exact .inr (.inr (immediateField_error h))
      · split at h
        · exact .inr (.inr (immediateField_error h))
        · cases h
          exact .inr (.inl rfl)

end

/-- The answer is no WrongArity error, whatever its payload. -/
def NeverWrongArity {α : Type} (x : Except AsmErrorKind α) : Prop :=
  ∀ (op : Opcode) (sh : Shape) (k : Nat), x ≠ .error (.wrongArity op sh k)

section
variable {α β : Type}

theorem NeverWrongArity.ok (a : α) : NeverWrongArity (.ok a) := nofun

/-- An error of a sequence is an error of one of its parts. -/
theorem NeverWrongArity.bind {x : Except AsmErrorKind α} {f : α → Except AsmErrorKind β} (hx : NeverWrongArity x)
    (hf : ∀ a, NeverWrongArity (f a)) : NeverWrongArity (x >>= f) := by
  cases x with
  | ok a => exact hf a
  | error e =>
    intro op sh k h
    cases h
    exact hx op sh k rfl

end

theorem registerField_neverWrongArity (t : Text) : NeverWrongArity (registerField t) := by
  intro op sh k h
  cases registerField_error h

theorem resolveToken_neverWrongArity (labels : List Label) (t : Text) : NeverWrongArity (resolveToken labels t) := by
  intro op sh k h
  obtain h | h | h := resolveToken_error h <;> cases h

section
variable {op : Opcode} {args : List Text}

/-- Every pattern of `assembleInstr` but the last has as many operands as its shape takes. -/
theorem assembleInstr_of_length_ne (labels : List Label) (h : args.length ≠ op.shape.operandCount) :
    assembleInstr labels op args = .error (.wrongArity op op.shape args.length) := by
  unfold assembleInstr
  split
  case h_7 => rfl
  all_goals
    next hs => exact absurd (by rw [hs]; rfl) h

/-- With the shape's count of operands the last pattern of `assembleInstr` is not reached, and in the others each error
is that of an operand. -/
theorem assembleInstr_neverWrongArity (labels : List Label) (h : args.length = op.shape.operandCount) :
    NeverWrongArity (assembleInstr labels op args) := by
  cases hs : op.shape <;> rw [hs] at h
  case none =>
    obtain rfl := List.length_eq_zero_iff.1 h
    simp only [assembleInstr, hs]
    exact .ok _
  case addressOnly =>
    obtain ⟨t, rfl⟩ := List.length_eq_one_iff.1 h
    simp only [assembleInstr, hs]
    exact .bind (resolveToken_neverWrongArity labels t) fun _ => .ok _
  case registerAddress | registerOperand2 | registerOperand2NoDestination =>
    obtain ⟨t₁, t₂, rfl⟩ := List.length_eq_two.1 h
    simp only [assembleInstr, hs]
    exact .bind (registerField_neverWrongArity t₁) fun _ =>
      .bind (resolveToken_neverWrongArity labels t₂) fun _ => .ok _
  case registerRegisterOperand2 =>
    obtain ⟨t₁, t₂, t₃, rfl⟩ := List.length_eq_three.1 h
    simp only [assembleInstr, hs]
    exact .bind (registerField_neverWrongArity t₁) fun _ =>
      .bind (registerField_neverWrongArity t₂) fun _ =>
        .bind (resolveToken_neverWrongArity labels t₃) fun _ => .ok _

end

end Sys2Proof.Machine

namespace Sys2Proof.Claims

open Sys2Proof.Machine

/-- The table of R80 by mnemonic is the one by shape. -/
theorem operandCount_eq_shape (op : Opcode) : operandCount op = op.shape.operandCount := by
  cases op <;> rfl

/-- Settles O41: R80's table is read by shape, as the assembler does. -/
theorem wrongOperandCountIsWrongArity : Obligations.WrongOperandCountIsWrongArity := by
  intro labels op args
  rw [operandCount_eq_shape]
  exact ⟨assembleInstr_of_length_ne labels, assembleInstr_neverWrongArity labels⟩

end Sys2Proof.Claims

/-! ### The words of an opcode's pattern (R53 to R59) -/

namespace Sys2Proof

theorem pack_unpack (w : Word) : pack (unpack w) = w := by
  have hw := w.isLt
  refine BitVec.eq_of_toNat_eq ?_
  simp only [pack, append_toNat, unpack_opcode_toNat, unpack_rn_toNat, unpack_rd_toNat, unpack_mode_toNat,
    unpack_operand2_toNat]
  omega

theorem unpack_injective {w w' : Word} (h : unpack w = unpack w') : w = w' := by
  rw [← pack_unpack w, h, pack_unpack]

/-- A word is legal exactly when its opcode code is one and its mode is 0 or 1; it then has the instruction of that
opcode with its fields (R57, R59). -/
theorem decodeFields_ok_iff {f : Fields} {i : Instr} :
    decodeFields f = .ok i ↔ ∃ op o, Opcode.ofCode f.opcode = some op ∧ Operand2.ofMode f.mode f.operand2 = some o ∧
      i = op.instr f.rn f.rd o := by
  refine ⟨decodeFields_ok, ?_⟩
  rintro ⟨op, o, hop, ho, rfl⟩
  simp only [decodeFields, hop, ho]

/-- The mask of the opcode and of the upper two mode bits keeps these fields and clears the others. -/
theorem unpack_and_mask (w : Word) :
    unpack (w &&& 0xF8060000#32) = ⟨(unpack w).opcode, 0#4, 0#4, (unpack w).mode &&& 6#3, 0#16⟩ := by
  have hop : (0xF8060000#32).extractLsb' 27 5 = BitVec.allOnes 5 := by decide
  have hrn : (0xF8060000#32).extractLsb' 23 4 = 0#4 := by decide
  have hrd : (0xF8060000#32).extractLsb' 19 4 = 0#4 := by decide
  have hmode : (0xF8060000#32).extractLsb' 16 3 = 6#3 := by decide
  have hoperand2 : (0xF8060000#32).extractLsb' 0 16 = 0#16 := by decide
  simp only [unpack, BitVec.extractLsb'_and, hop, hrn, hrd, hmode, hoperand2, BitVec.and_allOnes, BitVec.and_zero]

/-- The word of an opcode with every operand field 0. -/
theorem unpack_encode_instr_zero (op : Opcode) :
    unpack (encode (op.instr 0#4 0#4 (.direct 0#16))) = ⟨op.code, 0#4, 0#4, 0#3, 0#16⟩ := by
  cases op <;> decide

/-- A word has the pattern of an opcode exactly when it has its code and a mode of 0 or 1. -/
theorem and_mask_eq_iff (w : Word) (op : Opcode) :
    w &&& 0xF8060000#32 = encode (op.instr 0#4 0#4 (.direct 0#16)) ↔
      (unpack w).opcode = op.code ∧ (unpack w).mode &&& 6#3 = 0#3 := by
  have hfields := unpack_and_mask w
  have hpattern := unpack_encode_instr_zero op
  constructor
  · intro h
    rw [h, hpattern] at hfields
    injection hfields with hop _ _ hmode _
    exact ⟨hop.symm, hmode.symm⟩
  · rintro ⟨hop, hmode⟩
    refine unpack_injective ?_
    rw [hfields, hpattern, hop, hmode]

/-- The two modes that exist have their upper two bits clear, and the lowest bit tells them apart (R59). -/
theorem Operand2.ofMode_eq_some_iff (m : BitVec 3) (x : BitVec 16) (o : Operand2) :
    Operand2.ofMode m x = some o ↔
      m &&& 6#3 = 0#3 ∧ o = if m.getLsbD 0 = true then .immediate x else .direct x := by
  have hall : ∀ n : Fin 8, (BitVec.ofFin n &&& 6#3 = 0#3 ↔ BitVec.ofFin n = 0#3 ∨ BitVec.ofFin n = 1#3) := by decide
  have hmodes : m &&& 6#3 = 0#3 ↔ m = 0#3 ∨ m = 1#3 := hall m.toFin
  rw [hmodes]
  unfold Operand2.ofMode
  by_cases h0 : m = 0#3
  · subst h0; simp [eq_comm]
  · by_cases h1 : m = 1#3
    · subst h1; simp [eq_comm]
    · simp [h0, h1]

end Sys2Proof

namespace Sys2Proof.Claims

/-- Each opcode's pattern is its word with all operand fields 0; the literal of a rule (R104, R105) evaluates to it. -/
theorem encodedAs_instr (op : Opcode) : EncodedAs (encode (op.instr 0#4 0#4 (.direct 0#16))) op.instr := by
  constructor
  · intro w h
    obtain ⟨hop, hmode⟩ := (and_mask_eq_iff w op).1 h
    have hbit : (unpack w).mode.getLsbD 0 = w.getLsbD 16 := by simp [unpack]
    refine decodeFields_ok_iff.2 ⟨op, _, ?_, (Operand2.ofMode_eq_some_iff _ _ _).2 ⟨hmode, rfl⟩, ?_⟩
    · rw [hop, Opcode.ofCode_code]
    · rw [hbit]; rfl
  · intro w rn rd o h
    obtain ⟨op', o', hop, ho, hi⟩ := decodeFields_ok h
    obtain rfl : op = op' := by simpa using congrArg Instr.opcode hi
    obtain ⟨hmode, _⟩ := (Operand2.ofMode_eq_some_iff _ _ _).1 ho
    exact (and_mask_eq_iff w op).2 ⟨(Opcode.code_of_ofCode _ _ hop).symm, hmode⟩

end Sys2Proof.Claims

/-! ### Loads and stores (R104, R105) -/

namespace Sys2Proof.Machine

theorem exists_resolve_of_inRange {o : Operand2} (t : State) (h : o.inRange = true) : ∃ v, resolve t o = some v := by
  refine Option.ne_none_iff_exists'.1 fun hnone => ?_
  rw [(resolve_none_iff t o).1 hnone] at h
  cases h

theorem execLdr_eq_withField (s : State) (rd : BitVec 4) (o : Operand2) :
    ∃ k : Word → State → RegIdx → Res, execLdr rd o s = withOp2 o s fun v t => withField .rd rd s (k v t) := ⟨_, rfl⟩

theorem execStr_eq_withField (s : State) (rd : BitVec 4) (o : Operand2) :
    ∃ k : Word → State → RegIdx → Res, execStr rd o s = withOp2 o s fun v t => withField .rd rd s (k v t) := ⟨_, rfl⟩

section
variable {s : State} {rd : BitVec 4} {o : Operand2} {v : Word} {d : RegIdx}

theorem withField_eq {w : Which} (hd : d.val = rd.toNat) (k : RegIdx → Res) : withField w rd s k = k d := by
  have hlt : rd.toNat < 14 := hd ▸ d.isLt
  obtain rfl : d = ⟨rd.toNat, hlt⟩ := Fin.ext hd
  exact withField_lt hlt k

/-- LDR on operands that exist. -/
theorem execLdr_eq (hv : resolve s.portS o = some v) (hd : d.val = rd.toNat) (ha : v.toNat < s.params.memWords) :
    execLdr rd o s = .next (s.portS.portE d (s.mem.read v.toNat)) := by
  have hread : s.memRead v.toNat = some (s.mem.read v.toNat) := if_pos ha
  rw [execLdr, withOp2_some hv, withField_eq hd, State.portS_memRead, hread]

theorem execLdr_data_fault (hv : resolve s.portS o = some v) (hd : d.val = rd.toNat)
    (ha : s.params.memWords ≤ v.toNat) : execLdr rd o s = .fault (.outOfRangeAddress .data v.toNat s.pc) := by
  have hread : s.memRead v.toNat = none := (s.memRead_none_iff _).2 ha
  rw [execLdr, withOp2_some hv, withField_eq hd, State.portS_memRead, hread, raise]

theorem execStr_data_fault (hv : resolve s.portS o = some v) (hd : d.val = rd.toNat)
    (ha : s.params.memWords ≤ v.toNat) : execStr rd o s = .fault (.outOfRangeAddress .data v.toNat s.pc) := by
  have hwrite : s.portS.memWrite v.toNat (s.portS.reg d) = none := (s.portS.memWrite_none_iff _ _).2 ha
  rw [execStr, withOp2_some hv, withField_eq hd, hwrite, raise]

end

end Sys2Proof.Machine

namespace Sys2Proof.Claims

open Sys2Proof.Machine

/-- The field faults of an opcode that uses rd and not rn: operand2 is resolved first, then rd is checked, before
anything else of the instruction (R139). -/
theorem fieldFaults_of_rd_first {op : Opcode}
    (hexec : ∀ s rn rd o, ∃ k : Word → State → RegIdx → Res,
      exec (op.instr rn rd o) s = withOp2 o s fun v t => withField .rd rd s (k v t)) :
    FieldFaults op.instr false true := by
  refine fun s rn rd o => ⟨?_, fun _ h => absurd h (by decide), ?_⟩
  · rintro x rfl hx
    have hop : (op.instr rn rd (.direct x)).op2.inRange = false := by
      rw [Opcode.instr_op2, Operand2.inRange_direct_of_ge hx]
    rw [exec_of_inRange_false s hop, Opcode.instr_op2, Operand2.raw]
  · intro ho _ _ hrd
    obtain ⟨v, hv⟩ := exists_resolve_of_inRange s.portS ho
    obtain ⟨k, hk⟩ := hexec s rn rd o
    rw [hk, withOp2_some hv, withField_ge hrd]

/-- Settles O10. The loaded word goes through port E after port S moved the pc, so that `wrote` is the state for every
rd, the pc and the address register included. -/
theorem ldrLoadsTheAddressedWord : Obligations.LdrLoadsTheAddressedWord := by
  refine ⟨encodedAs_instr .ldr, fieldFaults_of_rd_first (op := .ldr) fun s _ => execLdr_eq_withField s, ?_⟩
  intro s rn rd o a d ho hd
  exact ⟨execLdr_eq ho.resolve_eq hd.symm, execLdr_data_fault ho.resolve_eq hd.symm⟩

/-- Settles O11. The stored word is read after port S moved the pc, which is `xreg`; that the memory written to is
canonical gives its reads and its own canonical form. -/
theorem strStoresTheRegister : Obligations.StrStoresTheRegister := by
  refine ⟨encodedAs_instr .str, fieldFaults_of_rd_first (op := .str) fun s _ => execStr_eq_withField s, ?_⟩
  intro s rn rd o a d ho hd
  refine ⟨fun hwf ha => ?_, execStr_data_fault ho.resolve_eq hd.symm⟩
  refine ⟨s.mem.write a.toNat (xreg s d), ?_, Mem.write_wf hwf _ _, fun b => Mem.read_write hwf _ b _⟩
  rw [← portS_reg_eq_xreg]
  exact execStr_eq ho.resolve_eq hd.symm ha

end Sys2Proof.Claims

/-! ### The ALU instructions (R106, R108, R110, R111, R113) -/

namespace Sys2Proof.Machine

/-! The alu_dispatch block as arithmetic modulo `2^32`; only the sum can reach the modulus. -/

section
variable (a b : Word)

theorem alu_add_toNat : (alu .add a b).toNat = (a.toNat + b.toNat) % 4294967296 := BitVec.toNat_add a b

theorem alu_passB_toNat : (alu .passB a b).toNat = b.toNat % 4294967296 := (Nat.mod_eq_of_lt b.isLt).symm

theorem alu_and_toNat : (alu .and a b).toNat = (a.toNat &&& b.toNat) % 4294967296 :=
  (BitVec.toNat_and a b).trans (Nat.mod_eq_of_lt (a &&& b).isLt).symm

theorem alu_xor_toNat : (alu .xor a b).toNat = (a.toNat ^^^ b.toNat) % 4294967296 :=
  (BitVec.toNat_xor a b).trans (Nat.mod_eq_of_lt (a ^^^ b).isLt).symm

end

section
variable {op : AluOp} {rn rd : BitVec 4} {o : Operand2} {s : State}

theorem aluRegister_rn_fault (ho : o.inRange = true) (hn : 14 ≤ rn.toNat) :
    aluRegister op rn rd o s = .fault (.outOfRangeAddress .rn rn.toNat s.pc) := by
  obtain ⟨v, hv⟩ := exists_resolve_of_inRange s.portS ho
  rw [aluRegister, withOp2_some hv, withField_ge hn]

/-- rd is checked after rn (R139). -/
theorem aluRegister_rd_fault (ho : o.inRange = true) (hn : rn.toNat < 14) (hd : 14 ≤ rd.toNat) :
    aluRegister op rn rd o s = .fault (.outOfRangeAddress .rd rd.toNat s.pc) := by
  obtain ⟨v, hv⟩ := exists_resolve_of_inRange s.portS ho
  rw [aluRegister, withOp2_some hv, withField_lt hn, withField_ge hd]

end

end Sys2Proof.Machine

namespace Sys2Proof.Claims

open Sys2Proof.Machine

theorem exec_instr_direct_of_ge (op : Opcode) (rn rd : BitVec 4) {x : BitVec 16} (s : State) (hx : 14 ≤ x.toNat) :
    exec (op.instr rn rd (.direct x)) s = .fault (.outOfRangeAddress .operand2 x.toNat s.pc) := by
  have hop : (op.instr rn rd (.direct x)).op2.inRange = false := by
    rw [Opcode.instr_op2, Operand2.inRange_direct_of_ge hx]
  rw [exec_of_inRange_false s hop, Opcode.instr_op2, Operand2.raw]

theorem portS_portE_eq_wrote (s : State) (d : RegIdx) (v : Word) : s.portS.portE d v = wrote s d v := rfl

/-! The rules of an opcode whose arm is `aluRegister` or `aluMove` of the function `f`. -/

section
variable {op : Opcode} {f : AluOp}

theorem fieldFaults_of_aluRegister
    (hexec : ∀ rn rd o s, exec (op.instr rn rd o) s = aluRegister f rn rd o s) :
    FieldFaults op.instr true true := by
  refine fun s rn rd o => ⟨?_, fun ho _ hn => ?_, fun ho hn _ hd => ?_⟩
  · rintro x rfl hx
    exact exec_instr_direct_of_ge op rn rd s hx
  · rw [hexec, aluRegister_rn_fault ho hn]
  · rw [hexec, aluRegister_rd_fault ho (hn rfl) hd]

theorem fieldFaults_of_aluMove (hexec : ∀ rn rd o s, exec (op.instr rn rd o) s = aluMove f rd o s) :
    FieldFaults op.instr false true :=
  fieldFaults_of_rd_first fun s rn rd o => ⟨fun v t d => .next (t.portE d (alu f 0#32 v)), hexec rn rd o s⟩

/-- The sources are read in the state port S leaves, before port E writes `x[rd]` (R19). -/
theorem writesFromRnAndOp2_of_aluRegister {g : Nat → Nat → Nat}
    (hexec : ∀ rn rd o s, exec (op.instr rn rd o) s = aluRegister f rn rd o s)
    (halu : ∀ a b, (alu f a b).toNat = g a.toNat b.toNat % 4294967296) :
    WritesFromRnAndOp2 op.instr g := by
  intro s rn rd o b n d hb hn hd
  rw [hexec, aluRegister, withOp2_some hb.resolve_eq, withField_eq hn.symm, withField_eq hd.symm,
    portS_reg_eq_xreg, portS_portE_eq_wrote, ← halu, BitVec.ofNat_toNat, BitVec.setWidth_eq]

theorem writesFromOp2_of_aluMove {g : Nat → Nat}
    (hexec : ∀ rn rd o s, exec (op.instr rn rd o) s = aluMove f rd o s)
    (halu : ∀ b, (alu f 0#32 b).toNat = g b.toNat % 4294967296) :
    WritesFromOp2 op.instr g := by
  intro s rn rd o b d hb hd
  rw [hexec, aluMove, withOp2_some hb.resolve_eq, withField_eq hd.symm, portS_portE_eq_wrote,
    ← halu, BitVec.ofNat_toNat, BitVec.setWidth_eq]

end

theorem exec_add_eq (rn rd : BitVec 4) (o : Operand2) (s : State) :
    exec (Opcode.add.instr rn rd o) s = aluRegister .add rn rd o s := rfl

theorem exec_mov_eq (rn rd : BitVec 4) (o : Operand2) (s : State) :
    exec (Opcode.mov.instr rn rd o) s = aluMove .passB rd o s := rfl

theorem exec_and_eq (rn rd : BitVec 4) (o : Operand2) (s : State) :
    exec (Opcode.and.instr rn rd o) s = aluRegister .and rn rd o s := rfl

theorem exec_eor_eq (rn rd : BitVec 4) (o : Operand2) (s : State) :
    exec (Opcode.eor.instr rn rd o) s = aluRegister .xor rn rd o s := rfl

/-- Settles O16: each of the four is its arm of the dispatch, and its function of the alu_dispatch block is the
arithmetic of its rule. -/
theorem addMovAndEorWriteTheirResults : Obligations.AddMovAndEorWriteTheirResults :=
  ⟨⟨encodedAs_instr .add, fieldFaults_of_aluRegister exec_add_eq,
      writesFromRnAndOp2_of_aluRegister exec_add_eq alu_add_toNat⟩,
    ⟨encodedAs_instr .mov, fieldFaults_of_aluMove exec_mov_eq,
      writesFromOp2_of_aluMove exec_mov_eq (alu_passB_toNat 0#32)⟩,
    ⟨encodedAs_instr .and, fieldFaults_of_aluRegister exec_and_eq,
      writesFromRnAndOp2_of_aluRegister exec_and_eq alu_and_toNat⟩,
    ⟨encodedAs_instr .eor, fieldFaults_of_aluRegister exec_eor_eq,
      writesFromRnAndOp2_of_aluRegister exec_eor_eq alu_xor_toNat⟩⟩

end Sys2Proof.Claims

/-! ### The branches (R117, R119 to R123) -/

namespace Sys2Proof.Machine

/-- The opcodes with a branch condition among their controls are the five branches, and each one's arm is `branch`. -/
theorem exec_instr_eq_branch {op : Opcode} (h : op.controls.brCond ≠ .never) (rn rd : BitVec 4) (o : Operand2)
    (s : State) : exec (op.instr rn rd o) s = branch op o s := by
  cases op with
  | b | beq | bne | bgt | blt => rfl
  | _ => exact absurd rfl h

/-! The condition of each branch as a proposition about `cmp`. -/

section
variable (c : Int)

theorem branchTaken_always_iff : branchTaken .always c = true ↔ True := iff_true_intro rfl

theorem branchTaken_cmpEq_iff : branchTaken .cmpEq c = true ↔ c = 0 := decide_eq_true_iff

theorem branchTaken_cmpNe_iff : branchTaken .cmpNe c = true ↔ c ≠ 0 := decide_eq_true_iff

theorem branchTaken_cmpGt_iff : branchTaken .cmpGt c = true ↔ c > 0 := decide_eq_true_iff

theorem branchTaken_cmpLt_iff : branchTaken .cmpLt c = true ↔ c < 0 := decide_eq_true_iff

end

end Sys2Proof.Machine

namespace Sys2Proof.Claims

open Sys2Proof.Machine

/-- An operand2 that names no register is a fault of every opcode; of its other fields nothing is claimed here. -/
theorem fieldFaults_operand2_only (op : Opcode) : FieldFaults op.instr false false := by
  refine fun s rn rd o => ⟨?_, fun _ h => absurd h (by decide), fun _ _ h => absurd h (by decide)⟩
  rintro x rfl hx
  exact exec_instr_direct_of_ge op rn rd s hx

theorem portS_eq_moved (s : State) : s.portS = moved s := rfl

/-- The rule of a branch from its condition: `cmp` is read as it was before the step, and op2 is written to the pc as
it is, whatever address it holds (R117). -/
theorem branchesWhen_of_branchTaken {op : Opcode} {taken : Int → Prop} (hop : op.controls.brCond ≠ .never)
    (htaken : ∀ c, branchTaken op.controls.brCond c = true ↔ taken c) : BranchesWhen op.instr taken := by
  intro s rn rd o a ha
  rw [exec_instr_eq_branch hop, branch_eq ha.resolve_eq, portS_portE_eq_wrote, portS_eq_moved]
  constructor
  · intro h
    rw [if_pos ((htaken s.cmp).2 h)]
  · intro h
    rw [if_neg fun hc => h ((htaken s.cmp).1 hc)]

/-- Settles O19: each of the five has its own branch condition, and the rest they have in common. -/
theorem branchesGoToOp2ExactlyWhenTaken : Obligations.BranchesGoToOp2ExactlyWhenTaken :=
  ⟨⟨encodedAs_instr .b, fieldFaults_operand2_only .b,
      branchesWhen_of_branchTaken (op := .b) (by decide) branchTaken_always_iff⟩,
    ⟨encodedAs_instr .beq, fieldFaults_operand2_only .beq,
      branchesWhen_of_branchTaken (op := .beq) (by decide) branchTaken_cmpEq_iff⟩,
    ⟨encodedAs_instr .bne, fieldFaults_operand2_only .bne,
      branchesWhen_of_branchTaken (op := .bne) (by decide) branchTaken_cmpNe_iff⟩,
    ⟨encodedAs_instr .bgt, fieldFaults_operand2_only .bgt,
      branchesWhen_of_branchTaken (op := .bgt) (by decide) branchTaken_cmpGt_iff⟩,
    ⟨encodedAs_instr .blt, fieldFaults_operand2_only .blt,
      branchesWhen_of_branchTaken (op := .blt) (by decide) branchTaken_cmpLt_iff⟩⟩

end Sys2Proof.Claims

/-! ### The round trip of words and instructions (R53 to R59, R67) -/

namespace Sys2Proof

/-- Packing as arithmetic: each field times the weight of its lowest bit (R55). -/
theorem pack_toNat (f : Fields) : (pack f).toNat =
    f.opcode.toNat * 134217728 + f.rn.toNat * 8388608 + f.rd.toNat * 524288 + f.mode.toNat * 65536 +
      f.operand2.toNat := by
  simp only [pack, append_toNat]
  omega

theorem Fields.eq_of_toNat_eq {f g : Fields} (hop : f.opcode.toNat = g.opcode.toNat) (hrn : f.rn.toNat = g.rn.toNat)
    (hrd : f.rd.toNat = g.rd.toNat) (hmode : f.mode.toNat = g.mode.toNat)
    (hoperand2 : f.operand2.toNat = g.operand2.toNat) : f = g := by
  cases f
  cases g
  simp only [Fields.mk.injEq, ← BitVec.toNat_inj]
  exact ⟨hop, hrn, hrd, hmode, hoperand2⟩

/-- No field of a packed word overlaps another: each is less than the weight of the one above it. -/
theorem unpack_pack (f : Fields) : unpack (pack f) = f := by
  have hop := f.opcode.isLt
  have hrn := f.rn.isLt
  have hrd := f.rd.isLt
  have hmode := f.mode.isLt
  have hoperand2 := f.operand2.isLt
  refine Fields.eq_of_toNat_eq ?_ ?_ ?_ ?_ ?_
  · rw [unpack_opcode_toNat, pack_toNat]; omega
  · rw [unpack_rn_toNat, pack_toNat]; omega
  · rw [unpack_rd_toNat, pack_toNat]; omega
  · rw [unpack_mode_toNat, pack_toNat]; omega
  · rw [unpack_operand2_toNat, pack_toNat]; omega

theorem decode_encode (i : Instr) : decode (encode i) = .ok i := by
  rw [decode, encode, unpack_pack]
  exact decodeFields_ok_iff.2 ⟨i.opcode, i.op2, Opcode.ofCode_code _, Operand2.ofMode_mode _, i.eq_instr⟩

/-- The fields of a decoded instruction are those of its word: the opcode's code and the operand's mode are the
fields they were looked up from. -/
theorem fields_of_decodeFields {f : Fields} {i : Instr} (h : decodeFields f = .ok i) : i.fields = f := by
  obtain ⟨op, o, hop, ho, rfl⟩ := decodeFields_ok h
  obtain ⟨hmode, hraw⟩ := Operand2.ofMode_some ho
  simp only [Instr.fields, Opcode.instr_opcode, Opcode.instr_rn, Opcode.instr_rd, Opcode.instr_op2,
    Opcode.code_of_ofCode _ _ hop, hmode, hraw]

theorem encode_of_decode {w : Word} {i : Instr} (h : decode w = .ok i) : encode i = w := by
  rw [encode, fields_of_decodeFields h, pack_unpack]

/-! The three classes of words by their opcode and mode fields (R67). -/

section
variable {f : Fields}

theorem decodeFields_of_illegalOpcode (h : 20 ≤ f.opcode.toNat) :
    decodeFields f = .error (.illegalOpcode f.opcode) := by
  simp only [decodeFields, (Opcode.ofCode_none_iff _).2 h]

theorem exists_ofCode_of_lt {c : BitVec 5} (h : c.toNat < 20) : ∃ op, Opcode.ofCode c = some op :=
  Option.ne_none_iff_exists'.1 fun hnone => absurd ((Opcode.ofCode_none_iff c).1 hnone) (Nat.not_le.2 h)

theorem decodeFields_of_illegalMode (h : f.opcode.toNat < 20) (hm : 2 ≤ f.mode.toNat) :
    decodeFields f = .error (.illegalMode f.mode) := by
  obtain ⟨op, hop⟩ := exists_ofCode_of_lt h
  simp only [decodeFields, hop, (Operand2.ofMode_none_iff _ _).2 hm]

theorem exists_decodeFields_ok (h : f.opcode.toNat < 20) (hm : f.mode.toNat < 2) :
    ∃ i, decodeFields f = .ok i := by
  obtain ⟨op, hop⟩ := exists_ofCode_of_lt h
  obtain ⟨o, ho⟩ := Option.ne_none_iff_exists'.1 fun hnone =>
    absurd ((Operand2.ofMode_none_iff f.mode f.operand2).1 hnone) (Nat.not_le.2 hm)
  exact ⟨_, decodeFields_ok_iff.2 ⟨op, o, hop, ho, rfl⟩⟩

end

end Sys2Proof

namespace Sys2Proof.Claims

open Sys2Proof.Machine

/-- Settles O3. -/
theorem decodeOfEncodeIsTheInstruction : Obligations.DecodeOfEncodeIsTheInstruction := decode_encode

/-- Settles O4. -/
theorem encodeOfDecodeIsTheWord : Obligations.EncodeOfDecodeIsTheWord := fun _ _ => encode_of_decode

/-- Settles O2. -/
theorem packAndUnpackAreInverse : Obligations.PackAndUnpackAreInverse := ⟨pack_toNat, unpack_pack, pack_unpack⟩

/-- Settles O5: the statement's quotients are the opcode and mode fields of the word (R54). -/
theorem everyWordFallsIntoOneClass : Obligations.EveryWordFallsIntoOneClass := by
  intro w
  obtain ⟨hop, _, _, hmode, _⟩ := unpackExtractsTheFieldBits w
  rw [← hop, ← hmode]
  refine ⟨decodeFields_of_illegalOpcode, decodeFields_of_illegalMode, fun h hm => ?_⟩
  obtain ⟨i, hi⟩ := exists_decodeFields_ok h hm
  have hcode : i.opcode.code = (unpack w).opcode := congrArg Fields.opcode (fields_of_decodeFields hi)
  exact ⟨i, hi, congrArg BitVec.toNat hcode⟩

/-- Settles O6: each listed legal word is the word of its instruction, and each illegal one has the field that makes
it so. -/
theorem listedWordsDecode : Obligations.ListedWordsDecode :=
  ⟨decode_encode (.ldr 0 2 (.immediate 10)), decode_encode (.add 13 12 (.immediate 1)),
    decode_encode (.mov 0 13 (.direct 12)), decode_encode (.cmp 0 0 (.immediate 7)),
    decode_encode (.b 0 15 (.immediate 5)), decode_encode (.out 15 15 (.immediate 0xFFFF)),
    decodeFields_of_illegalMode (by decide) (by decide), decodeFields_of_illegalOpcode (by decide)⟩

end Sys2Proof.Claims

/-! ### The invariant (R5, R24, R32, R36) -/

namespace Sys2Proof.Machine

section
variable {i : Instr} {s t : State}

/-- A completed instruction leaves memory alone, or writes one word that exists. -/
theorem exec_next_mem_cases (h : exec i s = .next t) :
    t.mem = s.mem ∨ ∃ a v, a < s.params.memWords ∧ t.mem = s.mem.write a v := by
  by_cases hs : i.opcode = .str
  · cases i <;> cases hs
    obtain ⟨v, d, _, _, ha, rfl⟩ := execStr_next h
    exact .inr ⟨_, _, ha, rfl⟩
  · exact .inl (exec_next_mem h hs)

/-- Only CMP writes `cmp` (R25). -/
theorem exec_next_cmp (h : exec i s = .next t) (hc : i.opcode ≠ .cmp) : t.cmp = s.cmp := by
  obtain ⟨r, ⟨_, rfl⟩ | ⟨_, m, rfl⟩ | ⟨ho, _⟩ | ⟨_, rfl⟩ | ⟨_, line, rest, _, rfl⟩ | ⟨_, c, rfl⟩⟩ := exec_next_cases h
  case inr.inr.inl => exact absurd ho hc
  all_goals rfl

theorem exec_next_cmp_cases (h : exec i s = .next t) : t.cmp = s.cmp ∨ ∃ a b, t.cmp = exactDifference a b := by
  by_cases hc : i.opcode = .cmp
  · cases i <;> cases hc
    obtain ⟨v, n, _, _, rfl⟩ := execCmp_next h
    exact .inr ⟨_, _, rfl⟩
  · exact .inl (exec_next_cmp h hc)

/-- What no instruction changes: the fault record, the parameters and the model's own counter. -/
theorem exec_next_constant (h : exec i s = .next t) :
    t.fault = s.fault ∧ t.params = s.params ∧ t.draws = s.draws := by
  obtain ⟨r, ⟨_, rfl⟩ | ⟨_, m, rfl⟩ | ⟨_, d, rfl⟩ | ⟨_, rfl⟩ | ⟨_, line, rest, _, rfl⟩ | ⟨_, c, rfl⟩⟩ :=
    exec_next_cases h
  all_goals exact ⟨rfl, rfl, rfl⟩

theorem step_next_constant (h : step s = .next t) : t.fault = s.fault ∧ t.params = s.params ∧ t.draws = s.draws := by
  obtain ⟨i, _, hi⟩ := step_next h
  exact exec_next_constant hi

/-- The difference of two 32-bit values is less than `2^32` either way. -/
theorem cmpInRange_exactDifference (a b : Word) : cmpInRange (exactDifference a b) := by
  have ha := a.isLt
  have hb := b.isLt
  unfold exactDifference
  constructor <;> omega

theorem exec_next_inv (h : exec i s = .next t) (hs : s.Inv) : t.Inv := by
  obtain ⟨hwf, hin, hcmp, hpar⟩ := hs
  obtain ⟨_, hp, _⟩ := exec_next_constant h
  obtain ⟨hwf', hin'⟩ : t.mem.wf = true ∧ t.mem.inBounds s.params.memWords = true := by
    obtain he | ⟨a, v, ha, he⟩ := exec_next_mem_cases h <;> rw [he]
    · exact ⟨hwf, hin⟩
    · exact ⟨Mem.write_wf hwf a v, Mem.write_inBounds hin ha v⟩
  have hcmp' : cmpInRange t.cmp := by
    obtain he | ⟨a, b, he⟩ := exec_next_cmp_cases h <;> rw [he]
    · exact hcmp
    · exact cmpInRange_exactDifference a b
  unfold State.Inv
  rw [hp]
  exact ⟨hwf', hin', hcmp', hpar⟩

theorem step_next_inv (h : step s = .next t) (hs : s.Inv) : t.Inv := by
  obtain ⟨i, _, hi⟩ := step_next h
  exact exec_next_inv hi hs

end

/-! The invariant in the parts of the state it speaks of: whatever else an action changes, it is kept. -/

theorem State.Inv.congr {s t : State} (hs : s.Inv) (hmem : t.mem = s.mem) (hcmp : t.cmp = s.cmp)
    (hpar : t.params = s.params) : t.Inv := by
  unfold State.Inv
  rw [hmem, hcmp, hpar]
  exact hs

theorem State.construct_inv {p : Params} (hp : p.wf) : (State.construct p).Inv :=
  ⟨rfl, rfl, show cmpInRange 0 by decide, hp⟩

/-- The image was not refused, so it fits. -/
theorem State.load_ok_length {s t : State} {image : List Word} (h : s.load image = .ok t) :
    image.length ≤ s.params.memWords := by
  unfold State.load at h
  split at h
  · next hl => exact hl
  · cases h

theorem State.load_inv {s t : State} {image : List Word} (h : s.load image = .ok t) (hs : s.Inv) : t.Inv := by
  obtain ⟨hwf, hin, hcmp, hpar⟩ := hs
  have hlen := State.load_ok_length h
  obtain rfl := State.load_ok h
  exact ⟨Mem.writeImage_wf hwf 0 image, Mem.writeImage_inBounds hin 0 image (by omega), hcmp, hpar⟩

/-- `DEV_CHR` is `DEV_DEC` plus a gap that is no multiple of `2^32`. -/
theorem devChr_ne_devDec : Config.devChr ≠ Config.devDec := by
  intro h
  have hgap := Config.devChrGap.isLt
  have hzero : BitVec.ofNat 32 (Config.devChrGap.val + 1) = 0#32 := by
    rwa [Config.devChr, add_eq_left] at h
  have hnat := congrArg BitVec.toNat hzero
  simp only [BitVec.toNat_ofNat] at hnat
  omega

theorem resetParams_wf : resetParams.wf := ⟨by decide, by decide, devChr_ne_devDec⟩

/-! ### Sessions: what every host action keeps -/

/-- A session of a machine constructed with parameters `p`: the invariant holds, the parameters are `p`, and what only a
step sets (the fault record, `halted`) is set only where the host has stepped. -/
structure Session.Sound (p : Params) (x : Session) : Prop where
  inv : x.core.Inv
  params : x.core.params = p
  running_of_fault : x.core.fault.isSome = true → x.phase = .running
  running_of_halted : x.core.halted = true → x.phase = .running

theorem Session.construct_sound {p : Params} (hp : p.wf) : (Session.construct p).Sound p :=
  ⟨State.construct_inv hp, rfl, nofun, nofun⟩

/-- A session that is not running has neither a fault record nor `halted` set. -/
theorem Session.Sound.idle {p : Params} {x : Session} (h : x.Sound p) (hx : x.phase ≠ .running) :
    x.core.fault.isSome ≠ true ∧ x.core.halted ≠ true :=
  ⟨fun hf => hx (h.running_of_fault hf), fun hh => hx (h.running_of_halted hh)⟩

theorem Session.act_keeps_sound {p : Params} (x : Session) (a : HostAction) (h : x.Sound p) :
    (x.act a).1.Sound p := by
  obtain he | ⟨line, _, he⟩ | ⟨image, s, _, hc, hl, he⟩ | ⟨image, r, _, hc, _, he⟩ | ⟨s, _, _, hs, he⟩ |
    ⟨f, _, _, _, he⟩ := x.act_cases a <;> rw [he]
  · exact h
  · exact ⟨h.inv.congr rfl rfl rfl, h.params, h.running_of_fault, h.running_of_halted⟩
  · obtain ⟨hf, hh⟩ := h.idle (by simp [hc])
    have hinv := State.load_inv hl h.inv
    obtain rfl := State.load_ok hl
    exact ⟨hinv, h.params, fun hx => absurd hx hf, fun hx => absurd hx hh⟩
  · obtain ⟨hf, hh⟩ := h.idle (by simp [hc])
    exact ⟨h.inv, h.params, fun hx => absurd hx hf, fun hx => absurd hx hh⟩
  · obtain ⟨_, hp, _⟩ := step_next_constant hs
    exact ⟨step_next_inv hs h.inv, hp.trans h.params, fun _ => rfl, fun _ => rfl⟩
  · exact ⟨h.inv.congr (State.afterFault_mem _ f) (State.afterFault_cmp _ f) (State.afterFault_params _ f),
      (State.afterFault_params _ f).trans h.params, fun _ => rfl, fun _ => rfl⟩

end Sys2Proof.Machine

namespace Sys2Proof.Claims

open Sys2Proof.Machine

/-- Settles O34: memory changes by a store to an address that exists, `cmp` to an exact difference. -/
theorem everyStepKeepsTheInvariant : Obligations.EveryStepKeepsTheInvariant := fun _ _ hs h => step_next_inv h hs

/-- Settles O35 by the inductive invariant `Session.Sound`, which holds after construction and which every host action
keeps. -/
theorem everySessionKeepsTheInvariant : Obligations.EverySessionKeepsTheInvariant := by
  intro p acts hp
  obtain ⟨hinv, hpar, hfault, hhalted⟩ :=
    Session.run_keeps Session.act_keeps_sound acts _ (Session.construct_sound hp)
  exact ⟨hinv, hpar, hfault, hhalted⟩

/-- Settles O33. -/
theorem invariantHoldsAfterConstruction : Obligations.InvariantHoldsAfterConstruction :=
  ⟨fun _ hp => State.construct_inv hp, State.construct_inv resetParams_wf⟩

/-- Settles O40: construction gives every part of the state its value; the registers are the one part that is looked up
in a vector of zeros. -/
theorem constructedMachineIsZero : Obligations.ConstructedMachineIsZero := by
  intro p
  refine ⟨fun i => ?_, rfl, rfl, fun _ => rfl, rfl, rfl, rfl, rfl⟩
  simp only [State.reg, State.construct, Fin.getElem_fin, Vector.getElem_replicate]

end Sys2Proof.Claims

/-! ### Memory primitives, and what the next step reads (R39, R46, R50, R95) -/

namespace Sys2Proof.Machine

/-- A machine whose next step runs an instruction: no fault record, not halted, a pc that exists and a legal word
there (R95). -/
theorem step_eq_exec {s : State} {i : Instr} (hf : s.fault = none) (hh : s.halted = false)
    (hp : s.pc.toNat < s.params.memWords) (hd : decode (s.mem.read s.pc.toNat) = .ok i) : step s = exec i s :=
  step_of_fetchInstr (fetchInstr_of hf hh hp hd)

theorem decode_of_decodeTableWord {nbits w : Nat} {i : Instr} (h : decodeTableWord nbits w = some i) :
    decode (BitVec.ofNat 32 (w % 2 ^ nbits)) = .ok i := by
  unfold decodeTableWord at h
  cases hd : decode (BitVec.ofNat 32 (w % 2 ^ nbits)) with
  | error e => rw [hd] at h; cases h
  | ok j => rw [hd] at h; cases h; rfl

theorem State.withFetchWord_eq (s : State) (nbits w : Nat) :
    s.withFetchWord nbits w = { s with mem := s.mem.write s.pc.toNat (BitVec.ofNat 32 (w % 2 ^ nbits)) } := rfl

theorem State.load_error {s : State} {image : List Word} (h : s.params.memWords < image.length) :
    s.load image = .error ⟨.load, s.params.memWords⟩ := if_neg (Nat.not_le.2 h)

theorem State.load_of_length {s : State} {image : List Word} (h : image.length ≤ s.params.memWords) :
    s.load image = .ok { s with mem := s.mem.writeImage 0 image } := if_pos h

end Sys2Proof.Machine

namespace Sys2Proof.Claims

open Sys2Proof.Machine

/-- Settles O14. -/
theorem memoryReadGivesTheLatestWrite : Obligations.MemoryReadGivesTheLatestWrite := by
  intro s a v
  refine ⟨fun h => ⟨(s.memRead_none_iff a).2 h, (s.memWrite_none_iff a v).2 h⟩, fun h => if_pos h, fun h hwf => ?_⟩
  have hread := Mem.read_write hwf a
  exact ⟨s.mem.write a v, if_pos h, Mem.write_wf hwf a v, (hread a v).trans (if_pos rfl),
    fun b hb => (hread b v).trans (if_neg hb)⟩

/-- Settles O39. -/
theorem loadPlacesTheImageOrRefuses : Obligations.LoadPlacesTheImageOrRefuses := by
  refine fun p image => ⟨fun h => ?_, fun h => State.load_error h⟩
  refine ⟨Mem.writeImage [] 0 image, State.load_of_length h, Mem.writeImage_wf Mem.wf_nil 0 image, fun a => ?_⟩
  rw [Mem.read_writeImage Mem.wf_nil, Nat.zero_add, Nat.sub_zero]
  simp only [Nat.zero_le, true_and]
  rfl

/-- Settles O28. -/
theorem stepRunsTheDecodedInstruction : Obligations.StepRunsTheDecodedInstruction :=
  fun _ _ hf hh hp hd => step_eq_exec hf hh hp hd

/-- Settles O29: the word read back at the pc is the one written there. -/
theorem placedWordIsTheNextInstruction : Obligations.PlacedWordIsTheNextInstruction := by
  intro s nbits w i hf hh hwf hp hw
  rw [State.withFetchWord_eq]
  refine ⟨step_eq_exec hf hh hp ?_, fun a ha => (Mem.read_write hwf _ a _).trans (if_neg ha)⟩
  have hread : (s.mem.write s.pc.toNat (BitVec.ofNat 32 (w % 2 ^ nbits))).read s.pc.toNat =
      BitVec.ofNat 32 (w % 2 ^ nbits) := (Mem.read_write hwf _ _ _).trans (if_pos rfl)
  exact (congrArg decode hread).trans (decode_of_decodeTableWord hw)

/-- STR on operands that exist, in terms of the values before the step. -/
theorem exec_str_eq {s : State} {rn rd : BitVec 4} {o : Operand2} {a : Word} {d : RegIdx} (ho : OperandIs s o a)
    (hd : rd.toNat = d.val) (ha : a.toNat < s.params.memWords) :
    exec (.str rn rd o) s = .next { moved s with mem := s.mem.write a.toNat (xreg s d) } := by
  rw [← portS_reg_eq_xreg]
  exact execStr_eq ho.resolve_eq hd.symm ha

theorem moved_pc (s : State) : (moved s).pc = s.pc + 1#32 := s.portS_pc

/-- LDR on operands that exist, in terms of the values before the step. -/
theorem exec_ldr_eq {s : State} {rn rd : BitVec 4} {o : Operand2} {a : Word} {d : RegIdx} (ho : OperandIs s o a)
    (hd : rd.toNat = d.val) (ha : a.toNat < s.params.memWords) :
    exec (.ldr rn rd o) s = .next (wrote s d (s.mem.read a.toNat)) := execLdr_eq ho.resolve_eq hd.symm ha

theorem wrote_reg_same (s : State) (d : RegIdx) (v : Word) : (wrote s d v).reg d = v := s.portS.portE_reg_same d v

theorem toNat_setWidth_32 (x : BitVec 16) : (x.setWidth 32).toNat = x.toNat :=
  (BitVec.toNat_setWidth 32 x).trans (Nat.mod_eq_of_lt (Nat.lt_trans x.isLt (by decide)))

theorem operandIs_setWidth (s : State) (x : BitVec 16) : OperandIs s (.immediate x) (x.setWidth 32) :=
  .inl ⟨x, rfl, toNat_setWidth_32 x⟩

/-- Settles O9. -/
theorem immediateModeZeroExtends : Obligations.ImmediateModeZeroExtends :=
  fun s x => ⟨x.setWidth 32, resolve_immediate s.portS x, toNat_setWidth_32 x⟩

/-- Settles O12: the load reads the word the store wrote, at the same address. -/
theorem storeThenLoadReturnsTheValue : Obligations.StoreThenLoadReturnsTheValue := by
  intro s rn rd rn' rd' o x d d' hwf ho hx hd hd'
  rw [BitVec.ofNat_toNat] at ho
  rw [← toNat_setWidth_32] at hx
  refine ⟨_, _, exec_str_eq ho hd hx, exec_ldr_eq (operandIs_setWidth _ x) hd' hx, ?_⟩
  exact (wrote_reg_same _ d' _).trans ((Mem.read_write hwf _ _ _).trans (if_pos rfl))

/-- Settles O13: the store leaves the fault record and `halted` as they were and moves the pc to the word it wrote. -/
theorem storedWordIsExecutedByTheNextStep : Obligations.StoredWordIsExecutedByTheNextStep := by
  intro s rn rd o d j hf hh hwf hp hdec ho hnext hd hj
  refine ⟨_, (step_eq_exec hf hh hp hdec).trans (exec_str_eq ho hd hnext), moved_pc s, ?_⟩
  have hread : (s.mem.write (s.pc + 1#32).toNat (xreg s d)).read (s.pc + 1#32).toNat = xreg s d :=
    (Mem.read_write hwf _ _ _).trans (if_pos rfl)
  have hpc : ∀ m : Mem, ({ moved s with mem := m } : State).pc = s.pc + 1#32 := fun _ => moved_pc s
  refine step_eq_exec hf hh ?_ ?_
  · rwa [hpc]
  · rw [hpc, hread, hj]

end Sys2Proof.Claims

/-! ### SUB, ORR, MVN, LSL and LSR (R107, R109, R112, R114 to R116) -/

namespace Sys2Proof.Machine

section
variable (a b : Word)

/-- The difference modulo `2^32`: the modulus is added before the subtraction, which then stays a natural number. -/
theorem alu_sub_toNat : (alu .sub a b).toNat = (a.toNat + 4294967296 - b.toNat) % 4294967296 := by
  have hb := b.isLt
  have hsub : (a - b).toNat = (4294967296 - b.toNat + a.toNat) % 4294967296 := BitVec.toNat_sub a b
  rw [alu, hsub]
  congr 1
  omega

theorem alu_or_toNat : (alu .or a b).toNat = (a.toNat ||| b.toNat) % 4294967296 :=
  (BitVec.toNat_or a b).trans (Nat.mod_eq_of_lt (a ||| b).isLt).symm

theorem alu_notB_toNat : (alu .notB a b).toNat = (4294967295 - b.toNat) % 4294967296 := by
  have hnot : (~~~b).toNat = 4294967295 - b.toNat := BitVec.toNat_not
  rw [alu, hnot]
  omega

/-- A left shift drops what leaves the word, which is the product modulo `2^32`. -/
theorem alu_shl_toNat :
    (alu .shl a b).toNat = (if 32 ≤ b.toNat then 0 else a.toNat * 2 ^ b.toNat) % 4294967296 := by
  by_cases h : b.toNat < 32
  · rw [alu, if_pos h, if_neg (Nat.not_le.2 h), BitVec.toNat_shiftLeft, Nat.shiftLeft_eq]
  · rw [alu, if_neg h, if_pos (Nat.not_lt.1 h)]
    rfl

theorem alu_shr_toNat :
    (alu .shr a b).toNat = (if 32 ≤ b.toNat then 0 else a.toNat / 2 ^ b.toNat) % 4294967296 := by
  by_cases h : b.toNat < 32
  · have hlt : a.toNat / 2 ^ b.toNat < 4294967296 := Nat.lt_of_le_of_lt (Nat.div_le_self _ _) a.isLt
    rw [alu, if_pos h, if_neg (Nat.not_le.2 h), BitVec.toNat_ushiftRight, Nat.shiftRight_eq_div_pow,
      Nat.mod_eq_of_lt hlt]
  · rw [alu, if_neg h, if_pos (Nat.not_lt.1 h)]
    rfl

end

end Sys2Proof.Machine

namespace Sys2Proof.Claims

open Sys2Proof.Machine

theorem exec_sub_eq (rn rd : BitVec 4) (o : Operand2) (s : State) :
    exec (Opcode.sub.instr rn rd o) s = aluRegister .sub rn rd o s := rfl

theorem exec_orr_eq (rn rd : BitVec 4) (o : Operand2) (s : State) :
    exec (Opcode.orr.instr rn rd o) s = aluRegister .or rn rd o s := rfl

theorem exec_mvn_eq (rn rd : BitVec 4) (o : Operand2) (s : State) :
    exec (Opcode.mvn.instr rn rd o) s = aluMove .notB rd o s := rfl

theorem exec_lsl_eq (rn rd : BitVec 4) (o : Operand2) (s : State) :
    exec (Opcode.lsl.instr rn rd o) s = aluRegister .shl rn rd o s := rfl

theorem exec_lsr_eq (rn rd : BitVec 4) (o : Operand2) (s : State) :
    exec (Opcode.lsr.instr rn rd o) s = aluRegister .shr rn rd o s := rfl

/-- Settles O17, as O16 was: each of the five by its arm of the dispatch and its function of the alu_dispatch block. -/
theorem subOrrMvnAndShiftsWriteTheirResults : Obligations.SubOrrMvnAndShiftsWriteTheirResults :=
  ⟨⟨encodedAs_instr .sub, fieldFaults_of_aluRegister exec_sub_eq,
      writesFromRnAndOp2_of_aluRegister exec_sub_eq alu_sub_toNat⟩,
    ⟨encodedAs_instr .orr, fieldFaults_of_aluRegister exec_orr_eq,
      writesFromRnAndOp2_of_aluRegister exec_orr_eq alu_or_toNat⟩,
    ⟨encodedAs_instr .mvn, fieldFaults_of_aluMove exec_mvn_eq,
      writesFromOp2_of_aluMove exec_mvn_eq (alu_notB_toNat 0#32)⟩,
    ⟨encodedAs_instr .lsl, fieldFaults_of_aluRegister exec_lsl_eq,
      writesFromRnAndOp2_of_aluRegister exec_lsl_eq alu_shl_toNat⟩,
    ⟨encodedAs_instr .lsr, fieldFaults_of_aluRegister exec_lsr_eq,
      writesFromRnAndOp2_of_aluRegister exec_lsr_eq alu_shr_toNat⟩⟩

/-- Settles O7: the arm of each opcode takes from the instruction only the register fields its opcode uses. -/
theorem unusedFieldsAreIgnored : Obligations.UnusedFieldsAreIgnored := by
  intro op rn rn' rd rd' o s hn hd
  cases op with
  | add | sub | and | orr | eor | lsl | lsr =>
    obtain rfl := hn rfl
    obtain rfl := hd rfl
    rfl
  | cmp | out =>
    obtain rfl := hn rfl
    rfl
  | ldr | str | mov | mvn =>
    obtain rfl := hd rfl
    rfl
  | b | beq | bne | bgt | blt | halt | inp => rfl

/-! ### CMP, and the branches after it (R118, R122, R123) -/

/-- The field faults of an opcode that uses rn and not rd: operand2 is resolved first, then rn is checked (R139). -/
theorem fieldFaults_of_rn_first {op : Opcode}
    (hexec : ∀ s rn rd o, ∃ k : Word → State → RegIdx → Res,
      exec (op.instr rn rd o) s = withOp2 o s fun v t => withField .rn rn s (k v t)) :
    FieldFaults op.instr true false := by
  refine fun s rn rd o => ⟨?_, ?_, fun _ _ h => absurd h (by decide)⟩
  · rintro x rfl hx
    exact exec_instr_direct_of_ge op rn rd s hx
  · intro ho _ hrn
    obtain ⟨v, hv⟩ := exists_resolve_of_inRange s.portS ho
    obtain ⟨k, hk⟩ := hexec s rn rd o
    rw [hk, withOp2_some hv, withField_ge hrn]

theorem execCmp_eq_withField (s : State) (rn : BitVec 4) (o : Operand2) :
    ∃ k : Word → State → RegIdx → Res, execCmp rn o s = withOp2 o s fun v t => withField .rn rn s (k v t) := ⟨_, rfl⟩

/-- CMP on operands that exist, in terms of the values before the step. -/
theorem exec_cmp_eq {s : State} {rn rd : BitVec 4} {o : Operand2} {b : Word} {n : RegIdx} (hb : OperandIs s o b)
    (hn : rn.toNat = n.val) :
    exec (.cmp rn rd o) s = .next { moved s with cmp := ((xreg s n).toNat : Int) - (b.toNat : Int) } := by
  rw [exec, execCmp, withOp2_some hb.resolve_eq, withField_eq hn.symm, portS_reg_eq_xreg]
  rfl

/-- Settles O18. -/
theorem cmpSetsTheExactDifference : Obligations.CmpSetsTheExactDifference :=
  ⟨encodedAs_instr .cmp, fieldFaults_of_rn_first (op := .cmp) fun s rn _ => execCmp_eq_withField s rn,
    fun _ _ _ _ _ _ hb hn => exec_cmp_eq hb hn⟩

/-- A conditional branch to an immediate target, its condition on `cmp` read as `p`. -/
theorem BranchesWhen.exec_immediate {mk : BitVec 4 → BitVec 4 → Operand2 → Instr} {taken : Int → Prop}
    (h : BranchesWhen mk taken) {t : State} {p : Prop} [Decidable p] (hp : taken t.cmp ↔ p) (r1 r2 : BitVec 4)
    (x : BitVec 16) :
    exec (mk r1 r2 (.immediate x)) t = .next (if p then wrote t pcIdx (x.setWidth 32) else moved t) := by
  obtain ⟨htaken, hnot⟩ := h t r1 r2 (.immediate x) _ (operandIs_setWidth t x)
  by_cases hc : p
  · rw [if_pos hc, htaken (hp.2 hc)]
  · rw [if_neg hc, hnot fun ht => hc (hp.1 ht)]

/-- Settles O20: the sign of the exact difference of two natural numbers is their order. -/
theorem branchAfterCmpComparesUnsigned : Obligations.BranchAfterCmpComparesUnsigned := by
  intro s rn rd r1 r2 o b n x hb hn
  obtain ⟨_, ⟨_, _, beq⟩, ⟨_, _, bne⟩, ⟨_, _, bgt⟩, ⟨_, _, blt⟩⟩ := branchesGoToOp2ExactlyWhenTaken
  refine ⟨_, exec_cmp_eq hb hn, beq.exec_immediate ?_ r1 r2 x, bne.exec_immediate ?_ r1 r2 x,
    bgt.exec_immediate ?_ r1 r2 x, blt.exec_immediate ?_ r1 r2 x⟩ <;> dsimp only <;> omega

/-! ### HALT, INP and OUT (R125 to R128) -/

theorem exec_halt_eq {s : State} {rn rd : BitVec 4} {o : Operand2} {v : Word} (ho : OperandIs s o v) :
    exec (.halt rn rd o) s = .next { moved s with halted := true } := by
  rw [exec, execHalt, withOp2_some ho.resolve_eq]
  rfl

/-- Settles O22. -/
theorem haltSetsHaltedOnly : Obligations.HaltSetsHaltedOnly := by
  refine ⟨encodedAs_instr .halt, fieldFaults_operand2_only .halt, fun _ => rfl, fun s rn rd o v ho => ?_⟩
  refine ⟨exec_halt_eq ho, fun hf => ?_⟩
  rw [← moved_pc s]
  exact step_of_halted hf rfl

section
variable {s : State} {rn rd : BitVec 4} {o : Operand2} {v : Word}

theorem exec_inp_of_take {u : State} (ho : OperandIs s o v) (h : (moved s).inTake = some u) :
    exec (.inp rn rd o) s = .next u := by
  rw [exec, execInp, withOp2_some ho.resolve_eq, portS_eq_moved, h]

theorem exec_inp_of_wait (ho : OperandIs s o v) (h : (moved s).inTake = none) :
    exec (.inp rn rd o) s = .refused .awaitingInput := by
  rw [exec, execInp, withOp2_some ho.resolve_eq, portS_eq_moved, h]

end

theorem inTake_of_cons {t : State} {line : List CodePoint} {rest : List (List CodePoint)}
    (h : t.input = line :: rest) : t.inTake = some { t with input := rest } := by
  simp only [State.inTake, h]

/-- Settles O24. -/
theorem inpTakesOneLineOrWaits : Obligations.InpTakesOneLineOrWaits :=
  ⟨encodedAs_instr .inp, fieldFaults_operand2_only .inp, fun s _ _ _ _ ho =>
    ⟨fun _ _ hi => exec_inp_of_take ho (inTake_of_cons hi),
      fun hi => exec_inp_of_wait ho ((moved s).inTake_none_iff.2 hi)⟩⟩

theorem chrText_of_val_eq {v : Word} {c : CodePoint} (h : c.val = v.toNat) : chrText v = some [c] := by
  have hle : v.toNat ≤ Config.charMax := h ▸ Nat.le_of_lt_succ c.isLt
  obtain rfl : c = ⟨v.toNat, Nat.lt_succ_of_le hle⟩ := Fin.ext h
  exact dif_pos hle

theorem chrText_of_gt {v : Word} (h : Config.charMax < v.toNat) : chrText v = none := dif_neg (Nat.not_le.2 h)

theorem execOut_eq_withField (s : State) (rn : BitVec 4) (o : Operand2) :
    ∃ k : Word → State → RegIdx → Res, execOut rn o s = withOp2 o s fun v t => withField .rn rn s (k v t) := ⟨_, rfl⟩

section
variable {s : State} {rn rd : BitVec 4} {o : Operand2} {sel : Word} {n : RegIdx}

theorem exec_out_decimal (ho : OperandIs s o sel) (hn : rn.toNat = n.val) (hd : sel = s.params.devDec) :
    exec (.out rn rd o) s = .next { moved s with output := s.output ++ decText (xreg s n) } := by
  rw [exec, execOut, withOp2_some ho.resolve_eq, withField_eq hn.symm, if_pos hd, portS_reg_eq_xreg]
  rfl

theorem exec_out_character {c : List CodePoint} (ho : OperandIs s o sel) (hn : rn.toNat = n.val)
    (hd : sel ≠ s.params.devDec) (hc : sel = s.params.devChr) (ht : chrText (xreg s n) = some c) :
    exec (.out rn rd o) s = .next { moved s with output := s.output ++ c } := by
  rw [exec, execOut, withOp2_some ho.resolve_eq, withField_eq hn.symm, if_neg hd, if_pos hc, portS_reg_eq_xreg, ht]
  rfl

theorem exec_out_unrepresentable (ho : OperandIs s o sel) (hn : rn.toNat = n.val) (hd : sel ≠ s.params.devDec)
    (hc : sel = s.params.devChr) (ht : chrText (xreg s n) = none) :
    exec (.out rn rd o) s = .fault (.unrepresentableCharacter (xreg s n) s.pc) := by
  rw [exec, execOut, withOp2_some ho.resolve_eq, withField_eq hn.symm, if_neg hd, if_pos hc, portS_reg_eq_xreg, ht,
    raise]

theorem exec_out_unsupported (ho : OperandIs s o sel) (hn : rn.toNat = n.val) (hd : sel ≠ s.params.devDec)
    (hc : sel ≠ s.params.devChr) :
    exec (.out rn rd o) s = .fault (.unsupportedDevice sel s.pc) := by
  rw [exec, execOut, withOp2_some ho.resolve_eq, withField_eq hn.symm, if_neg hd, if_neg hc, raise]

end

/-- Settles O25, by the selector and, for the character selector, by whether the value is a character. -/
theorem outAppendsTheSelectedRendering : Obligations.OutAppendsTheSelectedRendering :=
  ⟨encodedAs_instr .out, fieldFaults_of_rn_first (op := .out) fun s rn _ => execOut_eq_withField s rn,
    fun _ _ _ _ _ _ ho hn =>
      ⟨exec_out_decimal ho hn, fun hd hc _ hval => exec_out_character ho hn hd hc (chrText_of_val_eq hval),
        fun hd hc hgt => exec_out_unrepresentable ho hn hd hc (chrText_of_gt hgt), exec_out_unsupported ho hn⟩⟩

end Sys2Proof.Claims

/-! ### The host's step, and what a fault leaves behind (R31, R96, R99, R102) -/

namespace Sys2Proof.Machine

section
variable {x : Session}

theorem Session.act_step_of_next {t : State} (hm : x.phase.mayStep = true)
    (hs : Sys2Proof.Machine.step x.core = .next t) :
    x.act .step = (⟨t, .running⟩, .done) := by
  simp only [Session.act, if_pos hm, hs]

theorem Session.act_step_of_fault {f : Fault} (hm : x.phase.mayStep = true)
    (hs : Sys2Proof.Machine.step x.core = .fault f) :
    x.act .step = (⟨x.core.afterFault f, .running⟩, .faulted f) := by
  simp only [Session.act, if_pos hm, hs]

theorem Session.act_step_of_awaitingInput (hm : x.phase.mayStep = true)
    (hs : Sys2Proof.Machine.step x.core = .refused .awaitingInput) : x.act .step = (x, .waiting) := by
  simp only [Session.act, if_pos hm, hs]

theorem Session.act_step_of_runOver (hs : Sys2Proof.Machine.step x.core = .refused .runOver) :
    x.act .step = (x, .notAdmitted) := by
  cases hm : x.phase.mayStep with
  | false => exact Session.act_step_of_not hm
  | true => simp only [Session.act, if_pos hm, hs]

/-- The host sees a fault only where the step faulted. -/
theorem Session.act_step_faulted {y : Session} {f : Fault} (h : x.act .step = (y, .faulted f)) :
    Sys2Proof.Machine.step x.core = .fault f ∧ y.core = x.core.afterFault f := by
  unfold Session.act at h
  dsimp only at h
  split at h
  · split at h <;> cases h
    next hs => exact ⟨hs, rfl⟩
  · cases h

end

theorem step_of_fault_recorded {s : State} (h : s.fault.isSome = true) : step s = .refused .runOver := by
  simp only [step, fetchInstr, if_pos h]

theorem fetchInstr_fault_pc0 {s : State} {f : Fault} (h : fetchInstr s = .fault f) : f.pc0 = s.pc := by
  unfold fetchInstr at h
  split at h
  · cases h
  · split at h
    · cases h; rfl
    · split at h
      · cases h; rfl
      · split at h
        · next e _ => cases h; cases e <;> rfl
        · cases h

/-- A fault of a step carries the address of the word it worked on (R130). -/
theorem step_fault_pc0 {s : State} {f : Fault} (h : step s = .fault f) : f.pc0 = s.pc := by
  unfold step at h
  split at h
  · exact exec_fault_pc0 h
  · next g hg => cases h; exact fetchInstr_fault_pc0 hg
  · cases h

theorem State.afterFault_reg_other (s : State) (f : Fault) {r : RegIdx} (hr : r ≠ pcIdx) :
    (s.afterFault f).reg r = s.reg r := by
  unfold State.reg
  obtain h | h := s.afterFault_regs f <;> rw [h]
  exact s.portS_reg_other r hr

theorem State.afterFault_pc (s : State) (f : Fault) :
    (s.afterFault f).pc = s.pc ∨ (s.afterFault f).pc = s.pc + 1#32 := by
  obtain h | h := s.afterFault_regs f
  · exact .inl (congrArg (fun v : Vector Word 14 => v[pcIdx]) h)
  · exact .inr ((congrArg (fun v : Vector Word 14 => v[pcIdx]) h).trans s.portS_pc)

/-! Sessions in which a part of the machine can no longer change but for input lines. -/

/-- `y` is `x` with some lines added to the input channel. -/
def Session.SuppliedFrom (x y : Session) : Prop :=
  ∃ lines, y = { x with core := { x.core with input := x.core.input ++ lines } }

theorem Session.SuppliedFrom.refl (x : Session) : x.SuppliedFrom x := ⟨[], by rw [List.append_nil]⟩

theorem Session.SuppliedFrom.supplyLine {x y : Session} (h : x.SuppliedFrom y) (line : List CodePoint) :
    x.SuppliedFrom { y with core := y.core.supplyLine line } := by
  obtain ⟨lines, rfl⟩ := h
  exact ⟨lines ++ [line], by rw [← List.append_assoc]; rfl⟩

/-- With no load and no step admitted, only lines are added. -/
theorem Session.SuppliedFrom.act {x y : Session} (h : x.SuppliedFrom y) (a : HostAction)
    (hload : ∀ image, a = .load image → y.phase ≠ .constructed) (hstep : y.act .step = (y, .notAdmitted)) :
    x.SuppliedFrom (y.act a).1 := by
  cases a with
  | supplyLine line => exact h.supplyLine line
  | step => rwa [hstep]
  | load image => rwa [Session.act_load_of_ne (hload image rfl)]

/-- A refused image leaves the machine as it was, and not started (R46). -/
theorem Session.act_load_refused {p : Params} {image : List Word} (h : p.memWords < image.length) :
    (Session.construct p).act (.load image) =
      ({ Session.construct p with phase := .notStarted }, .loadRefused ⟨.load, p.memWords⟩) := by
  have hload : (State.construct p).load image = .error ⟨.load, p.memWords⟩ := State.load_error h
  simp only [Session.act, Session.construct, if_true, hload]

theorem Session.act_load_accepted {p : Params} {image : List Word} {s : State}
    (h : (State.construct p).load image = .ok s) :
    (Session.construct p).act (.load image) = (⟨s, .loaded⟩, .done) := by
  simp only [Session.act, Session.construct, if_true, h]

end Sys2Proof.Machine

namespace Sys2Proof.Claims

open Sys2Proof.Machine

/-- Settles O36. -/
theorem faultingStepLeavesOnlyTheRecord : Obligations.FaultingStepLeavesOnlyTheRecord := by
  intro x y f h
  obtain ⟨hs, hy⟩ := Session.act_step_faulted h
  rw [hy]
  exact ⟨hs, step_fault_pc0 hs, State.afterFault_fault _ f, State.afterFault_mem _ f, State.afterFault_cmp _ f,
    State.afterFault_halted _ f, State.afterFault_output _ f, State.afterFault_input _ f, State.afterFault_params _ f,
    fun _ hr => State.afterFault_reg_other _ f hr, State.afterFault_pc _ f⟩

/-- Settles O37. -/
theorem stepAfterHaltChangesOnlyTheRecord : Obligations.StepAfterHaltChangesOnlyTheRecord := by
  rintro ⟨s, _⟩ rfl hf hh
  exact Session.act_step_of_fault rfl (step_of_halted hf hh)

/-- Settles O38: with a record no step exists, and after a load no other is admitted, so that only lines are added. -/
theorem faultRecordIsFinal : Obligations.FaultRecordIsFinal := by
  intro x acts hf hp
  have hover : ∀ y : Session, x.SuppliedFrom y → Sys2Proof.Machine.step y.core = .refused .runOver := by
    rintro y ⟨lines, rfl⟩
    exact step_of_fault_recorded hf
  have hkeeps : ∀ (y : Session) (a : HostAction), x.SuppliedFrom y → x.SuppliedFrom (y.act a).1 := by
    intro y a hy
    have hphase : y.phase ≠ .constructed := by
      obtain ⟨lines, rfl⟩ := hy
      exact hp
    exact hy.act a (fun _ _ => hphase) (Session.act_step_of_runOver (hover y hy))
  have hrun := Session.run_keeps hkeeps acts x (.refl x)
  obtain ⟨lines, hlines⟩ := hrun
  exact ⟨lines, hlines, hover _ ⟨lines, hlines⟩⟩

end Sys2Proof.Claims

/-! ### The order of the host's actions (R46, R102, R151) -/

namespace Sys2Proof.Machine

/-- What each action of a sequence keeps, the sequence keeps. -/
theorem Session.run_keeps_of_mem {P : Session → Prop} {acts : List HostAction}
    (keeps : ∀ (x : Session), ∀ a ∈ acts, P x → P (x.act a).1) (x : Session) (h : P x) : P (x.run acts).1 := by
  induction acts generalizing x with
  | nil => exact h
  | cons a rest ih =>
    exact ih (fun y b hb => keeps y b (List.mem_cons_of_mem a hb)) _ (keeps x a List.mem_cons_self h)

/-- A session in a phase without steps, under actions of which no load is admitted. -/
theorem Session.run_of_not_mayStep {x : Session} {acts : List HostAction} (hp : x.phase.mayStep = false)
    (hload : ∀ image, HostAction.load image ∈ acts → x.phase ≠ .constructed) : x.SuppliedFrom (x.run acts).1 := by
  refine Session.run_keeps_of_mem (fun y a ha hy => ?_) x (.refl x)
  have hphase : y.phase = x.phase := by
    obtain ⟨lines, rfl⟩ := hy
    rfl
  refine hy.act a ?_ (Session.act_step_of_not (hphase ▸ hp))
  rintro image rfl
  exact hphase ▸ hload image ha

end Sys2Proof.Machine

namespace Sys2Proof.Claims

open Sys2Proof.Machine

/-- Settles O47: the load on a constructed machine is the one that changes the phase; before it and after a refused one
only lines are added. -/
theorem hostActionsAreAdmittedInOrder : Obligations.HostActionsAreAdmittedInOrder := by
  refine ⟨fun _ image hx => Session.act_load_of_ne hx image, ?_, ?_, ?_, ?_, ?_⟩
  · intro p acts hacts
    exact Session.run_of_not_mayStep (x := Session.construct p) rfl fun image h => absurd h (hacts image)
  · intro p image acts hlong
    have hload := Session.act_load_refused hlong
    refine ⟨congrArg Prod.snd hload, ?_⟩
    rw [Session.run_cons_fst, hload]
    exact Session.run_of_not_mayStep (x := { Session.construct p with phase := .notStarted }) rfl
      fun _ _ => Phase.noConfusion
  · intro p image hfits
    have hload := State.load_of_length (s := State.construct p) hfits
    exact ⟨_, hload, Session.act_load_accepted hload⟩
  · intro x hx
    refine Session.act_step_of_not ?_
    obtain h | h := hx <;> rw [h] <;> rfl
  · intro x hx
    have hm := (Phase.mayStep_iff _).2 hx
    exact ⟨fun _ => Session.act_step_of_next hm, fun _ => Session.act_step_of_fault hm,
      Session.act_step_of_awaitingInput hm, Session.act_step_of_runOver⟩

end Sys2Proof.Claims

/-! ### `cmp` and the output stream as inputs of a step (R25, R29) -/

namespace Sys2Proof.Machine

/-- The state with `cmp` and the output stream replaced by functions of them. -/
def State.mapCmpOutput (a : Int → Int) (b : List CodePoint → List CodePoint) (s : State) : State :=
  { s with cmp := a s.cmp, output := b s.output }

/-- The same outcome, a next state changed by `g`. -/
def Res.mapNext (g : State → State) : Res → Res
  | .next t => .next (g t)
  | .fault f => .fault f
  | .refused r => .refused r

@[simp] theorem Res.mapNext_next (g : State → State) (t : State) : Res.mapNext g (.next t) = .next (g t) := rfl
@[simp] theorem Res.mapNext_fault (g : State → State) (f : Fault) : Res.mapNext g (.fault f) = .fault f := rfl
@[simp] theorem Res.mapNext_refused (g : State → State) (r : Refusal) : Res.mapNext g (.refused r) = .refused r := rfl

section
variable {s : State} {a : Int → Int} {b : List CodePoint → List CodePoint}

theorem resolve_mapCmpOutput (o : Operand2) : resolve (s.mapCmpOutput a b).portS o = resolve s.portS o := by
  cases o <;> rfl

theorem withOp2_mapCmpOutput {o : Operand2} {k k' : Word → State → Res}
    (h : ∀ v, k' v (s.portS.mapCmpOutput a b) = Res.mapNext (State.mapCmpOutput a b) (k v s.portS)) :
    withOp2 o (s.mapCmpOutput a b) k' = Res.mapNext (State.mapCmpOutput a b) (withOp2 o s k) := by
  cases hv : resolve s.portS o with
  | none => rw [withOp2_none hv, withOp2_none ((resolve_mapCmpOutput o).trans hv)]; rfl
  | some v => rw [withOp2_some hv, withOp2_some ((resolve_mapCmpOutput o).trans hv)]; exact h v

theorem withField_mapCmpOutput {w : Which} {f : BitVec 4} {k k' : RegIdx → Res}
    (h : ∀ i, k' i = Res.mapNext (State.mapCmpOutput a b) (k i)) :
    withField w f (s.mapCmpOutput a b) k' = Res.mapNext (State.mapCmpOutput a b) (withField w f s k) := by
  unfold withField
  cases regIdx? f.toNat with
  | none => rfl
  | some i => exact h i

theorem State.memWrite_mapCmpOutput (n : Nat) (v : Word) :
    (s.mapCmpOutput a b).memWrite n v = (s.memWrite n v).map (State.mapCmpOutput a b) := by
  have hparams : (s.mapCmpOutput a b).params = s.params := rfl
  by_cases hlt : n < s.params.memWords
  · simp only [State.memWrite, hparams, if_pos hlt]; rfl
  · simp only [State.memWrite, hparams, if_neg hlt]; rfl

/-! The arms. A branch needs its condition to read the same; CMP and OUT, which write one of the two parts, need the
replacement to commute with that write. -/

theorem aluRegister_mapCmpOutput (op : AluOp) (rn rd : BitVec 4) (o : Operand2) :
    aluRegister op rn rd o (s.mapCmpOutput a b) = Res.mapNext (State.mapCmpOutput a b) (aluRegister op rn rd o s) :=
  withOp2_mapCmpOutput fun _ => withField_mapCmpOutput fun _ => withField_mapCmpOutput fun _ => rfl

theorem aluMove_mapCmpOutput (op : AluOp) (rd : BitVec 4) (o : Operand2) :
    aluMove op rd o (s.mapCmpOutput a b) = Res.mapNext (State.mapCmpOutput a b) (aluMove op rd o s) :=
  withOp2_mapCmpOutput fun _ => withField_mapCmpOutput fun _ => rfl

theorem branch_mapCmpOutput {op : Opcode} (o : Operand2)
    (h : branchTaken op.controls.brCond (a s.cmp) = branchTaken op.controls.brCond s.cmp) :
    branch op o (s.mapCmpOutput a b) = Res.mapNext (State.mapCmpOutput a b) (branch op o s) := by
  refine withOp2_mapCmpOutput fun v => ?_
  have hcmp : (s.portS.mapCmpOutput a b).cmp = a s.cmp := rfl
  simp only [branchLogic, hcmp, h, State.portS_cmp]
  cases branchTaken op.controls.brCond s.cmp <;> rfl

theorem execLdr_mapCmpOutput (rd : BitVec 4) (o : Operand2) :
    execLdr rd o (s.mapCmpOutput a b) = Res.mapNext (State.mapCmpOutput a b) (execLdr rd o s) := by
  refine withOp2_mapCmpOutput fun v => withField_mapCmpOutput fun d => ?_
  have hread : (s.portS.mapCmpOutput a b).memRead v.toNat = s.portS.memRead v.toNat := rfl
  rw [hread]
  cases s.portS.memRead v.toNat <;> rfl

theorem execStr_mapCmpOutput (rd : BitVec 4) (o : Operand2) :
    execStr rd o (s.mapCmpOutput a b) = Res.mapNext (State.mapCmpOutput a b) (execStr rd o s) := by
  refine withOp2_mapCmpOutput fun v => withField_mapCmpOutput fun d => ?_
  have hwrite : (s.portS.mapCmpOutput a b).memWrite v.toNat ((s.portS.mapCmpOutput a b).reg d) =
      (s.portS.memWrite v.toNat (s.portS.reg d)).map (State.mapCmpOutput a b) := State.memWrite_mapCmpOutput _ _
  rw [hwrite]
  cases s.portS.memWrite v.toNat (s.portS.reg d) <;> rfl

theorem execCmp_mapCmpOutput (rn : BitVec 4) (o : Operand2) (h : ∀ d, a d = d) :
    execCmp rn o (s.mapCmpOutput a b) = Res.mapNext (State.mapCmpOutput a b) (execCmp rn o s) := by
  refine withOp2_mapCmpOutput fun v => withField_mapCmpOutput fun n => ?_
  have hset : ∀ d, (s.portS.mapCmpOutput a b).setCmp d = (s.portS.setCmp d).mapCmpOutput a b := by
    intro d
    simp only [State.mapCmpOutput, State.setCmp_cmp, h]
    rfl
  rw [Res.mapNext_next, ← hset]
  rfl

theorem execHalt_mapCmpOutput (o : Operand2) :
    execHalt o (s.mapCmpOutput a b) = Res.mapNext (State.mapCmpOutput a b) (execHalt o s) :=
  withOp2_mapCmpOutput fun _ => rfl

theorem execInp_mapCmpOutput (o : Operand2) :
    execInp o (s.mapCmpOutput a b) = Res.mapNext (State.mapCmpOutput a b) (execInp o s) := by
  refine withOp2_mapCmpOutput fun _ => ?_
  have hinput : (s.portS.mapCmpOutput a b).input = s.input := rfl
  simp only [State.inTake, hinput, State.portS_input]
  cases s.input <;> rfl

theorem execOut_mapCmpOutput (rn : BitVec 4) (o : Operand2) (h : ∀ c, b (s.output ++ c) = b s.output ++ c) :
    execOut rn o (s.mapCmpOutput a b) = Res.mapNext (State.mapCmpOutput a b) (execOut rn o s) := by
  refine withOp2_mapCmpOutput fun v => withField_mapCmpOutput fun n => ?_
  have happend : ∀ c, (s.portS.mapCmpOutput a b).outAppend c = (s.portS.outAppend c).mapCmpOutput a b := by
    intro c
    simp only [State.mapCmpOutput, State.outAppend_output, State.portS_output, h]
    rfl
  have hreg : (s.portS.mapCmpOutput a b).reg n = s.portS.reg n := rfl
  have hparams : (s.mapCmpOutput a b).params = s.params := rfl
  rw [hparams, hreg]
  by_cases hd : v = s.params.devDec
  · simp only [if_pos hd, happend, Res.mapNext_next]
  by_cases hc : v = s.params.devChr
  · simp only [if_neg hd, if_pos hc]
    cases chrText (s.portS.reg n) with
    | none => rfl
    | some c => simp only [happend, Res.mapNext_next]
  · simp only [if_neg hd, if_neg hc]
    rfl

/-- What `cmp` and the output stream hold has no influence on an instruction but through a branch's condition: with
both replaced it has the same outcome, they being replaced in the next state too. -/
theorem exec_mapCmpOutput {i : Instr}
    (hbr : branchTaken i.opcode.controls.brCond (a s.cmp) = branchTaken i.opcode.controls.brCond s.cmp)
    (hcmp : i.opcode = .cmp → ∀ d, a d = d)
    (hout : i.opcode = .out → ∀ c, b (s.output ++ c) = b s.output ++ c) :
    exec i (s.mapCmpOutput a b) = Res.mapNext (State.mapCmpOutput a b) (exec i s) := by
  cases i with
  | ldr => exact execLdr_mapCmpOutput ..
  | str => exact execStr_mapCmpOutput ..
  | add | sub | and | orr | eor | lsl | lsr => exact aluRegister_mapCmpOutput ..
  | mov | mvn => exact aluMove_mapCmpOutput ..
  | b => exact branch_mapCmpOutput (op := .b) _ hbr
  | beq | bne | bgt | blt => exact branch_mapCmpOutput _ hbr
  | cmp => exact execCmp_mapCmpOutput _ _ (hcmp rfl)
  | halt => exact execHalt_mapCmpOutput _
  | inp => exact execInp_mapCmpOutput _
  | out => exact execOut_mapCmpOutput _ _ (hout rfl)

end

/-- CMP does the same whatever `cmp` held: it overwrites it. -/
theorem execCmp_cmp_irrel (rn : BitVec 4) (o : Operand2) (s : State) (c : Int) :
    execCmp rn o { s with cmp := c } = execCmp rn o s := by
  cases o <;> rfl

/-- The opcodes whose branch condition reads `cmp` are BEQ, BNE, BGT and BLT. -/
theorem branchTaken_cmp_irrel {op : Opcode} (h1 : op ≠ .beq) (h2 : op ≠ .bne) (h3 : op ≠ .bgt) (h4 : op ≠ .blt)
    (c d : Int) : branchTaken op.controls.brCond c = branchTaken op.controls.brCond d := by
  cases op with
  | beq => exact absurd rfl h1
  | bne => exact absurd rfl h2
  | bgt => exact absurd rfl h3
  | blt => exact absurd rfl h4
  | _ => rfl

/-- An instruction that neither writes `cmp` nor branches on it has, with another value in `cmp`, the same outcome and
that value in `cmp` after it. -/
theorem exec_cmp_irrel {i : Instr} {s : State} (h1 : i.opcode ≠ .beq) (h2 : i.opcode ≠ .bne) (h3 : i.opcode ≠ .bgt)
    (h4 : i.opcode ≠ .blt) (hc : i.opcode ≠ .cmp) (c : Int) :
    exec i { s with cmp := c } = Res.mapNext (fun t => { t with cmp := c }) (exec i s) :=
  exec_mapCmpOutput (a := fun _ => c) (b := id) (branchTaken_cmp_irrel h1 h2 h3 h4 _ _) (fun h => absurd h hc)
    fun _ _ => rfl

/-- A completed instruction appends to the output stream, and OUT alone does. -/
theorem exec_next_output {i : Instr} {s t : State} (h : exec i s = .next t) :
    ∃ e, t.output = s.output ++ e ∧ (e ≠ [] → i.opcode = .out) := by
  obtain ⟨r, ⟨_, rfl⟩ | ⟨_, m, rfl⟩ | ⟨_, d, rfl⟩ | ⟨_, rfl⟩ | ⟨_, line, rest, _, rfl⟩ | ⟨ho, c, rfl⟩⟩ :=
    exec_next_cases h
  case inr.inr.inr.inr.inr => exact ⟨c, rfl, fun _ => ho⟩
  all_goals exact ⟨[], (List.append_nil _).symm, fun he => absurd rfl he⟩

/-- With another output stream `o` before it, a step has the same outcome and appends the same to `o`. -/
theorem step_output_irrel (s : State) (o : List CodePoint) :
    step { s with output := o } =
      Res.mapNext (fun t => { t with output := o ++ t.output.drop s.output.length }) (step s) := by
  have hfetch : fetchInstr { s with output := o } = fetchInstr s := rfl
  unfold step
  rw [hfetch]
  cases fetchInstr s with
  | fault f => rfl
  | refused r => rfl
  | next i =>
    have hs : State.mapCmpOutput id (fun l => o ++ l.drop s.output.length) s = { s with output := o } := by
      simp only [State.mapCmpOutput, id_eq, List.drop_length, List.append_nil]
    have h := exec_mapCmpOutput (i := i) (s := s) (a := id) (b := fun l => o ++ l.drop s.output.length) rfl
      (fun _ _ => rfl) fun _ c => by simp only [List.drop_left, List.drop_length, List.append_nil]
    rw [hs] at h
    exact h

/-- The opcode of a fetched instruction is that of the fetched word's code. -/
theorem ofCode_of_fetchInstr {s : State} {i : Instr} (h : fetchInstr s = .next i) :
    Opcode.ofCode s.fetchedFields.opcode = some i.opcode := by
  obtain ⟨_, _, _, hd⟩ := fetchInstr_next h
  obtain ⟨op, o, hop, _, rfl⟩ := decodeFields_ok hd
  rw [Opcode.instr_opcode]
  exact hop

end Sys2Proof.Machine

namespace Sys2Proof.Claims

open Sys2Proof.Machine

/-- Settles O21: CMP, which overwrites `cmp`, and the instructions that leave it as it is. -/
theorem onlyCmpWritesCmpOnlyBranchesReadIt : Obligations.OnlyCmpWritesCmpOnlyBranchesReadIt := by
  refine ⟨fun i s t h hc => exec_next_cmp h hc, fun i s c h1 h2 h3 h4 => ?_⟩
  by_cases hc : i.opcode = .cmp
  · have hsame : exec i { s with cmp := c } = exec i s := by
      cases i <;> cases hc
      exact execCmp_cmp_irrel ..
    rw [hsame]
    refine ⟨fun t h => ?_, fun _ h => h, fun _ h => h⟩
    rw [if_pos hc, h]
  · have hmap := exec_cmp_irrel (s := s) h1 h2 h3 h4 hc c
    refine ⟨fun t h => ?_, fun f h => ?_, fun r h => ?_⟩
    · rw [hmap, h, Res.mapNext_next, if_neg hc]
    · rw [hmap, h, Res.mapNext_fault]
    · rw [hmap, h, Res.mapNext_refused]

/-- Settles O27. -/
theorem outputOnlyGrowsAndIsNeverRead : Obligations.OutputOnlyGrowsAndIsNeverRead := by
  refine ⟨fun s t h => ?_, fun s o f h => ?_, fun s o r h => ?_⟩
  · obtain ⟨i, hi, hexec⟩ := step_next h
    obtain ⟨e, he, hout⟩ := exec_next_output hexec
    refine ⟨e, he, fun hne => ?_, fun o => ?_⟩
    · rw [ofCode_of_fetchInstr hi, hout hne]
    · rw [step_output_irrel, h, Res.mapNext_next, he, List.drop_left]
  · rw [step_output_irrel, h, Res.mapNext_fault]
  · rw [step_output_irrel, h, Res.mapNext_refused]

end Sys2Proof.Claims

/-! ### The control signals as bounds of the effects (R64, R65) -/

namespace Sys2Proof.Machine

theorem State.reg_congr {t u : State} (h : t.regs = u.regs) (r : RegIdx) : t.reg r = u.reg r :=
  congrArg (fun v : Vector Word 14 => v[r]) h

/-- The register file after a completed instruction: the pc moved and, through port E, at most one register written,
`x[rd]` where `rd_we` is set or the pc where a branch has a condition. -/
theorem exec_next_regs {i : Instr} {s t : State} (h : exec i s = .next t) :
    t.regs = s.portS.regs ∨
    (i.opcode.controls.rdWe = true ∧ ∃ d v, d.val = i.rd.toNat ∧ t.regs = (s.portS.portE d v).regs) ∨
    (i.opcode.controls.brCond ≠ .never ∧ ∃ v, t.regs = (s.portS.portE pcIdx v).regs) := by
  cases i with
  | ldr rn rd o =>
    obtain ⟨_, d, _, hd, _, rfl⟩ := execLdr_next h
    exact .inr (.inl ⟨rfl, d, _, hd, rfl⟩)
  | add rn rd o | sub rn rd o | and rn rd o | orr rn rd o | eor rn rd o | lsl rn rd o | lsr rn rd o =>
    obtain ⟨_, _, d, _, _, hd, rfl⟩ := aluRegister_next h
    exact .inr (.inl ⟨rfl, d, _, hd, rfl⟩)
  | mov rn rd o | mvn rn rd o =>
    obtain ⟨_, d, _, hd, rfl⟩ := aluMove_next h
    exact .inr (.inl ⟨rfl, d, _, hd, rfl⟩)
  | b rn rd o =>
    obtain ⟨v, _, ⟨_, rfl⟩ | ⟨_, rfl⟩⟩ := branch_next (op := .b) h
    · exact .inr (.inr ⟨nofun, v, rfl⟩)
    · exact .inl rfl
  | beq rn rd o | bne rn rd o | bgt rn rd o | blt rn rd o =>
    obtain ⟨v, _, ⟨_, rfl⟩ | ⟨_, rfl⟩⟩ := branch_next h
    · exact .inr (.inr ⟨nofun, v, rfl⟩)
    · exact .inl rfl
  | str rn rd o =>
    obtain ⟨_, _, _, _, _, rfl⟩ := execStr_next h
    exact .inl rfl
  | cmp rn rd o =>
    obtain ⟨_, _, _, _, rfl⟩ := execCmp_next h
    exact .inl rfl
  | halt rn rd o =>
    obtain ⟨_, _, rfl⟩ := execHalt_next h
    exact .inl rfl
  | inp rn rd o =>
    obtain ⟨_, _, _, _, _, rfl⟩ := execInp_next h
    exact .inl rfl
  | out rn rd o =>
    obtain ⟨_, _, _, _, _, rfl, _⟩ := execOut_next h
    exact .inl rfl

section
variable {i : Instr} {s t : State}

theorem exec_next_reg_other (h : exec i s = .next t) {r : RegIdx} (hr : r ≠ pcIdx)
    (hrd : i.opcode.controls.rdWe = true → i.rd.toNat ≠ r.val) : t.reg r = s.reg r := by
  rw [← State.portS_reg_other s r hr]
  obtain he | ⟨hwe, d, v, hd, he⟩ | ⟨_, v, he⟩ := exec_next_regs h <;> rw [State.reg_congr he]
  · have hne : r ≠ d := fun e => hrd hwe (by rw [e, hd])
    exact s.portS.portE_reg_other d r v hne
  · exact s.portS.portE_reg_other pcIdx r v hr

theorem exec_next_pc (h : exec i s = .next t) (hbr : i.opcode.controls.brCond = .never)
    (hrd : i.opcode.controls.rdWe = true → i.rd.toNat ≠ 13) : t.pc = s.pc + 1#32 := by
  rw [State.pc_eq, ← State.portS_pc s]
  obtain he | ⟨hwe, d, v, hd, he⟩ | ⟨hne, _⟩ := exec_next_regs h
  · exact State.reg_congr he pcIdx
  · have hne : pcIdx ≠ d := fun e => hrd hwe (by rw [← hd, ← e]; rfl)
    exact (State.reg_congr he pcIdx).trans (s.portS.portE_reg_other d pcIdx v hne)
  · exact absurd hbr hne

theorem exec_next_input (h : exec i s = .next t) (hi : i.opcode ≠ .inp) : t.input = s.input := by
  obtain ⟨r, ⟨_, rfl⟩ | ⟨_, m, rfl⟩ | ⟨_, d, rfl⟩ | ⟨_, rfl⟩ | ⟨ho, _⟩ | ⟨_, c, rfl⟩⟩ := exec_next_cases h
  case inr.inr.inr.inr.inl => exact absurd ho hi
  all_goals rfl

end

end Sys2Proof.Machine

namespace Sys2Proof

/-! Each control signal that lets a part of the state change is set for the one opcode that changes it. -/

section
variable {op : Opcode}

theorem Opcode.memWe_iff : op.controls.memWe = true ↔ op = .str := by cases op <;> decide

theorem Opcode.cmpWe_iff : op.controls.cmpWe = true ↔ op = .cmp := by cases op <;> decide

theorem Opcode.sys_halt_iff : op.controls.sys = some .halt ↔ op = .halt := by cases op <;> decide

theorem Opcode.sys_inp_iff : op.controls.sys = some .inp ↔ op = .inp := by cases op <;> decide

theorem Opcode.sys_out_iff : op.controls.sys = some .out ↔ op = .out := by cases op <;> decide

end

end Sys2Proof

namespace Sys2Proof.Claims

open Sys2Proof.Machine

/-- Settles O32. -/
theorem controlSignalsBoundTheEffects : Obligations.ControlSignalsBoundTheEffects := by
  intro i s t h
  refine ⟨fun r hr hrd => exec_next_reg_other h hr hrd, exec_next_pc h, fun hm => ?_, fun hm hwf a ha b hb => ?_,
    fun hc => ?_, fun hh => ?_, fun hi => ?_, fun ho => ?_, exec_next_constant h⟩
  · refine exec_next_mem h fun he => ?_
    rw [Opcode.memWe_iff.2 he] at hm
    cases hm
  · have hstr := Opcode.memWe_iff.1 hm
    cases i <;> cases hstr
    exact execStr_read_other h hwf ha hb
  · refine exec_next_cmp h fun he => ?_
    rw [Opcode.cmpWe_iff.2 he] at hc
    cases hc
  · have hne : i.opcode ≠ .halt := fun he => hh (Opcode.sys_halt_iff.2 he)
    rw [exec_next_halted h, decide_eq_false hne, Bool.or_false]
  · exact exec_next_input h fun he => hi (Opcode.sys_inp_iff.2 he)
  · obtain ⟨e, he, hout⟩ := exec_next_output h
    have hnil : e = [] := by_contra fun hne => ho (Opcode.sys_out_iff.2 (hout hne))
    rw [he, hnil, List.append_nil]

end Sys2Proof.Claims

/-! ### The fault priority (R94, R139) -/

namespace Sys2Proof.Machine

/-- The fault of the first line that applies. -/
def FaultLine.first (ls : List FaultLine) : Option Fault := (ls.find? (·.applies)).map (·.fault)

theorem FaultLine.first_cons_of_applies {l : FaultLine} (ls : List FaultLine) (h : l.applies = true) :
    FaultLine.first (l :: ls) = some l.fault := by
  rw [FaultLine.first, List.find?_cons_of_pos h, Option.map_some]

theorem FaultLine.first_cons_of_not {l : FaultLine} (ls : List FaultLine) (h : l.applies = false) :
    FaultLine.first (l :: ls) = FaultLine.first ls := by
  rw [FaultLine.first, List.find?_cons_of_neg (by simp [h]), FaultLine.first]

/-- The outcome `r` is what the lines `ls` of R139's list say: the fault of the first one that applies; where none does,
the wait if `waits`, and else a successor state. -/
structure Follows (ls : List FaultLine) (waits : Bool) (r : Res) : Prop where
  fault : ∀ f, FaultLine.first ls = some f → r = .fault f
  wait : FaultLine.first ls = none → waits = true → r = .refused .awaitingInput
  next : FaultLine.first ls = none → waits = false → ∃ t, r = .next t

section
variable {ls : List FaultLine} {waits : Bool} {r : Res} {s : State}

theorem Follows.of_next (t : State) : Follows [] false (.next t) := ⟨nofun, nofun, fun _ _ => ⟨t, rfl⟩⟩

theorem Follows.of_wait : Follows [] true (.refused .awaitingInput) := ⟨nofun, fun _ _ => rfl, nofun⟩

/-- A line that applies is the fault, whatever follows it. -/
theorem Follows.of_applies {l : FaultLine} {f : Fault} (h : l.applies = true) (hf : l.fault = f) :
    Follows (l :: ls) waits (.fault f) := by
  have hfirst := FaultLine.first_cons_of_applies ls h
  refine ⟨fun g hg => ?_, fun hnone => ?_, fun hnone => ?_⟩
  · rw [hfirst, Option.some_inj] at hg
    rw [← hg, hf]
  all_goals
    rw [hfirst] at hnone
    cases hnone

/-- Of a list only its first fault matters. -/
theorem Follows.of_first_eq {ls' : List FaultLine} (h : FaultLine.first ls' = FaultLine.first ls)
    (hr : Follows ls waits r) : Follows ls' waits r :=
  ⟨fun g hg => hr.fault g (h ▸ hg), fun hnone => hr.wait (h ▸ hnone), fun hnone => hr.next (h ▸ hnone)⟩

/-- A line that does not apply changes nothing. -/
theorem Follows.skip {l : FaultLine} (h : l.applies = false) (hr : Follows ls waits r) :
    Follows (l :: ls) waits r := .of_first_eq (FaultLine.first_cons_of_not ls h) hr

/-- A line behind the first that does not apply changes nothing either. -/
theorem Follows.skip_second {l m : FaultLine} (h : m.applies = false) (hr : Follows (l :: ls) waits r) :
    Follows (l :: m :: ls) waits r := by
  refine .of_first_eq ?_ hr
  cases hl : l.applies with
  | true => rw [FaultLine.first_cons_of_applies _ hl, FaultLine.first_cons_of_applies _ hl]
  | false => rw [FaultLine.first_cons_of_not _ hl, FaultLine.first_cons_of_not _ h, FaultLine.first_cons_of_not _ hl]

/-- A line and the test of its condition. -/
theorem Follows.line {l : FaultLine} (hyes : l.applies = true → r = .fault l.fault)
    (hno : l.applies = false → Follows ls waits r) : Follows (l :: ls) waits r := by
  cases h : l.applies with
  | true => rw [hyes h]; exact .of_applies h rfl
  | false => exact .skip h (hno h)

/-- Operand2 resolution is its line of the list. -/
theorem Follows.withOp2 {o : Operand2} {k : Word → State → Res}
    (h : ∀ v, resolve s.portS o = some v → Follows ls waits (k v s.portS)) :
    Follows (⟨!o.inRange, .outOfRangeAddress .operand2 o.raw.toNat s.pc⟩ :: ls) waits (withOp2 o s k) := by
  refine .line (fun ho => ?_) (fun ho => ?_)
  · exact withOp2_none ((resolve_none_iff _ _).2 (by simpa using ho)) k
  · obtain ⟨v, hv⟩ := exists_resolve_of_inRange s.portS (by simpa using ho)
    rw [withOp2_some hv]
    exact h v hv

/-- The check of a register field is its line of the list. -/
theorem Follows.withField {w : Which} {x : BitVec 4} {k : RegIdx → Res}
    (h : ∀ i, i.val = x.toNat → Follows ls waits (k i)) :
    Follows (⟨14 ≤ x.toNat, .outOfRangeAddress w x.toNat s.pc⟩ :: ls) waits (withField w x s k) := by
  refine .line (fun hx => withField_ge (of_decide_eq_true hx) k) (fun hx => ?_)
  have hlt : x.toNat < 14 := Nat.not_le.1 (of_decide_eq_false hx)
  rw [withField_lt hlt]
  exact h _ rfl

end

/-- R139's lines for what an execute arm does with operands that exist: `v` is the value of operand2 and `x` that of
the register in rn. -/
def deviceLines (s : State) (op : Opcode) (v x : Word) : List FaultLine :=
  [ ⟨(op = .ldr || op = .str) && s.params.memWords ≤ v.toNat, .outOfRangeAddress .data v.toNat s.pc⟩,
    ⟨op = .out && v ≠ s.params.devDec && v ≠ s.params.devChr, .unsupportedDevice v s.pc⟩,
    ⟨op = .out && v ≠ s.params.devDec && v = s.params.devChr && Config.charMax < x.toNat,
      .unrepresentableCharacter x s.pc⟩ ]

/-- R139's lines for the execution of `i` in a step begun at `s`, those after the fetch and the decoding. -/
def executeLines (s : State) (i : Instr) (v x : Word) : List FaultLine :=
  ⟨!i.op2.inRange, .outOfRangeAddress .operand2 i.op2.raw.toNat s.pc⟩ ::
  ⟨i.opcode.usesRn && 14 ≤ i.rn.toNat, .outOfRangeAddress .rn i.rn.toNat s.pc⟩ ::
  ⟨i.opcode.usesRd && 14 ≤ i.rd.toNat, .outOfRangeAddress .rd i.rd.toNat s.pc⟩ ::
  deviceLines s i.opcode v x

/-- `i` waits in a step begun at `s` (R126). -/
def waitsForLine (s : State) (i : Instr) : Bool := decide (i.opcode = .inp) && s.input.isEmpty

section
variable {s : State} {v x : Word}

/-- The last three lines are about LDR, STR and OUT only. -/
theorem Follows.deviceLines_of_not {op : Opcode} {waits : Bool} {r : Res} (h1 : op ≠ .ldr) (h2 : op ≠ .str)
    (h3 : op ≠ .out) (hr : Follows [] waits r) : Follows (deviceLines s op v x) waits r := by
  refine .skip ?_ <| .skip ?_ <| .skip ?_ hr
  · simp [h1, h2]
  · simp [h3]
  · simp [h3]

theorem aluRegister_follows {ls : List FaultLine} {waits : Bool} (f : AluOp) (rn rd : BitVec 4) (o : Operand2)
    (h : ∀ t, Follows ls waits (.next t)) :
    Follows (⟨!o.inRange, .outOfRangeAddress .operand2 o.raw.toNat s.pc⟩ ::
      ⟨14 ≤ rn.toNat, .outOfRangeAddress .rn rn.toNat s.pc⟩ ::
      ⟨14 ≤ rd.toNat, .outOfRangeAddress .rd rd.toNat s.pc⟩ :: ls) waits (aluRegister f rn rd o s) := by
  unfold aluRegister
  exact .withOp2 fun _ _ => .withField fun _ _ => .withField fun _ _ => h _

theorem aluMove_follows {ls : List FaultLine} {waits : Bool} (f : AluOp) (rd : BitVec 4) (o : Operand2)
    (h : ∀ t, Follows ls waits (.next t)) :
    Follows (⟨!o.inRange, .outOfRangeAddress .operand2 o.raw.toNat s.pc⟩ ::
      ⟨14 ≤ rd.toNat, .outOfRangeAddress .rd rd.toNat s.pc⟩ :: ls) waits (aluMove f rd o s) := by
  unfold aluMove
  exact .withOp2 fun _ _ => .withField fun _ _ => h _

theorem branch_follows {ls : List FaultLine} {waits : Bool} (op : Opcode) (o : Operand2)
    (h : ∀ t, Follows ls waits (.next t)) :
    Follows (⟨!o.inRange, .outOfRangeAddress .operand2 o.raw.toNat s.pc⟩ :: ls) waits (branch op o s) := by
  unfold branch
  refine .withOp2 fun v _ => ?_
  rw [branchLogic]
  cases branchTaken op.controls.brCond s.portS.cmp <;> exact h _

theorem execCmp_follows {ls : List FaultLine} {waits : Bool} (rn : BitVec 4) (o : Operand2)
    (h : ∀ t, Follows ls waits (.next t)) :
    Follows (⟨!o.inRange, .outOfRangeAddress .operand2 o.raw.toNat s.pc⟩ ::
      ⟨14 ≤ rn.toNat, .outOfRangeAddress .rn rn.toNat s.pc⟩ :: ls) waits (execCmp rn o s) := by
  unfold execCmp
  exact .withOp2 fun _ _ => .withField fun _ _ => h _

theorem execHalt_follows {ls : List FaultLine} {waits : Bool} (o : Operand2) (h : ∀ t, Follows ls waits (.next t)) :
    Follows (⟨!o.inRange, .outOfRangeAddress .operand2 o.raw.toNat s.pc⟩ :: ls) waits (execHalt o s) := by
  unfold execHalt
  exact .withOp2 fun _ _ => h _

/-- The arms that can do nothing but complete once their operands exist, with the lines that then do not apply. -/
theorem Follows.next_deviceLines {op : Opcode} (h1 : op ≠ .ldr) (h2 : op ≠ .str) (h3 : op ≠ .out) (t : State) :
    Follows (deviceLines s op v x) false (.next t) := .deviceLines_of_not h1 h2 h3 (.of_next t)

theorem execLdr_follows (rd : BitVec 4) (o : Operand2) (hv : ∀ w, resolve s.portS o = some w → v = w) :
    Follows (⟨!o.inRange, .outOfRangeAddress .operand2 o.raw.toNat s.pc⟩ ::
      ⟨14 ≤ rd.toNat, .outOfRangeAddress .rd rd.toNat s.pc⟩ :: deviceLines s .ldr v x) false (execLdr rd o s) := by
  unfold execLdr
  refine .withOp2 fun w hw => .withField fun d _ => ?_
  obtain rfl := hv w hw
  cases hr : s.portS.memRead v.toNat with
  | none =>
    have hge : s.params.memWords ≤ v.toNat := (s.portS.memRead_none_iff _).1 hr
    exact .of_applies (decide_eq_true hge) rfl
  | some y =>
    have hlt : v.toNat < s.params.memWords := (State.memRead_some hr).1
    exact .skip (decide_eq_false (Nat.not_le.2 hlt)) <| .skip rfl <| .skip rfl <| .of_next _

theorem execStr_follows (rd : BitVec 4) (o : Operand2) (hv : ∀ w, resolve s.portS o = some w → v = w) :
    Follows (⟨!o.inRange, .outOfRangeAddress .operand2 o.raw.toNat s.pc⟩ ::
      ⟨14 ≤ rd.toNat, .outOfRangeAddress .rd rd.toNat s.pc⟩ :: deviceLines s .str v x) false (execStr rd o s) := by
  unfold execStr
  refine .withOp2 fun w hw => .withField fun d _ => ?_
  obtain rfl := hv w hw
  cases hr : s.portS.memWrite v.toNat (s.portS.reg d) with
  | none =>
    have hge : s.params.memWords ≤ v.toNat := (s.portS.memWrite_none_iff _ _).1 hr
    exact .of_applies (decide_eq_true hge) rfl
  | some y =>
    have hlt : v.toNat < s.params.memWords := (s.portS.memWrite_some hr).1
    exact .skip (decide_eq_false (Nat.not_le.2 hlt)) <| .skip rfl <| .skip rfl <| .of_next _

theorem chrText_none_iff (w : Word) : chrText w = none ↔ Config.charMax < w.toNat := by
  unfold chrText
  split <;> simp <;> omega

/-- `m` is the line of the rd field, which OUT does not use. -/
theorem execOut_follows {m : FaultLine} (rn : BitVec 4) (o : Operand2) (hm : m.applies = false)
    (hv : ∀ w, resolve s.portS o = some w → v = w) (hx : ∀ n : RegIdx, n.val = rn.toNat → x = s.portS.reg n) :
    Follows (⟨!o.inRange, .outOfRangeAddress .operand2 o.raw.toNat s.pc⟩ ::
      ⟨14 ≤ rn.toNat, .outOfRangeAddress .rn rn.toNat s.pc⟩ :: m :: deviceLines s .out v x) false (execOut rn o s) := by
  unfold execOut
  refine .withOp2 fun w hw => .withField fun n hn => .skip hm <| .skip rfl ?_
  obtain rfl := hv w hw
  rw [← hx n hn]
  by_cases hd : v = s.params.devDec
  · rw [if_pos hd]
    exact .skip (by simp [hd]) <| .skip (by simp [hd]) <| .of_next _
  rw [if_neg hd]
  by_cases hc : v = s.params.devChr
  · rw [if_pos hc]
    refine .skip (by simp [hc]) ?_
    cases ht : chrText x with
    | none =>
      have hgt := (chrText_none_iff x).1 ht
      exact .of_applies (by simp [← hc, hd, hgt]) rfl
    | some c =>
      have hle : ¬ Config.charMax < x.toNat := fun hgt => by
        rw [(chrText_none_iff x).2 hgt] at ht
        cases ht
      exact .skip (by simp [hle]) <| .of_next _
  · rw [if_neg hc]
    exact .of_applies (by simp [hd, hc]) rfl

theorem execInp_follows (o : Operand2) :
    Follows (⟨!o.inRange, .outOfRangeAddress .operand2 o.raw.toNat s.pc⟩ :: deviceLines s .inp v x) s.input.isEmpty
      (execInp o s) := by
  unfold execInp
  refine .withOp2 fun _ _ => .deviceLines_of_not nofun nofun nofun ?_
  rw [State.inTake, State.portS_input]
  cases s.input with
  | nil => exact .of_wait
  | cons line rest => exact .of_next _

/-- An instruction's outcome is what the lines after the fetch and the decoding say. -/
theorem exec_follows (i : Instr) (hv : ∀ w, resolve s.portS i.op2 = some w → v = w)
    (hx : ∀ n : RegIdx, n.val = i.rn.toNat → x = s.portS.reg n) :
    Follows (executeLines s i v x) (waitsForLine s i) (exec i s) := by
  unfold executeLines
  cases i with
  | add rn rd o | sub rn rd o | and rn rd o | orr rn rd o | eor rn rd o | lsl rn rd o | lsr rn rd o =>
    exact aluRegister_follows _ rn rd o (.next_deviceLines nofun nofun nofun)
  | mov rn rd o | mvn rn rd o =>
    exact .skip_second rfl <| aluMove_follows _ rd o (.next_deviceLines nofun nofun nofun)
  | b rn rd o =>
    exact .skip_second rfl <| .skip_second rfl <| branch_follows .b o (.next_deviceLines nofun nofun nofun)
  | beq rn rd o | bne rn rd o | bgt rn rd o | blt rn rd o =>
    exact .skip_second rfl <| .skip_second rfl <| branch_follows _ o (.next_deviceLines nofun nofun nofun)
  | ldr rn rd o => exact .skip_second rfl <| execLdr_follows rd o hv
  | str rn rd o => exact .skip_second rfl <| execStr_follows rd o hv
  | cmp rn rd o => exact execCmp_follows rn o fun t => .skip rfl <| .next_deviceLines (op := .cmp) nofun nofun nofun t
  | halt rn rd o =>
    exact .skip_second rfl <| .skip_second rfl <| execHalt_follows o (.next_deviceLines nofun nofun nofun)
  | inp rn rd o => exact .skip_second rfl <| .skip_second rfl <| execInp_follows o
  | out rn rd o => exact execOut_follows rn o rfl hv hx

end

/-! The head of the list: what a step does where it has no instruction to execute. -/

section
variable {s : State}

theorem step_of_fetch_fault (hf : s.fault = none) (hh : s.halted = false) (hp : s.params.memWords ≤ s.pc.toNat) :
    step s = .fault (.outOfRangeAddress .fetch s.pc.toNat s.pc) := by
  have hread : s.memRead s.pc.toNat = none := (s.memRead_none_iff _).2 hp
  simp [step, fetchInstr, hf, hh, hread]

theorem step_of_decode_error {e : DecodeFault} (hf : s.fault = none) (hh : s.halted = false)
    (hp : s.pc.toNat < s.params.memWords) (he : decodeFields s.fetchedFields = .error e) :
    step s = .fault (decodeFault s.pc e) := by
  have hread : s.memRead s.pc.toNat = some s.fetchedWord := if_pos hp
  have hdecode : decode s.fetchedWord = .error e := he
  simp [step, fetchInstr, hf, hh, hread, hdecode]

theorem State.stepReg_eq (s : State) (i : RegIdx) : s.stepReg i.val = s.portS.reg i := by
  unfold State.stepReg
  by_cases h : i = pcIdx
  · subst h
    exact (if_pos rfl).trans s.portS_pc.symm
  · have hne : i.val ≠ 13 := fun e => h (Fin.ext e)
    have hlt : i.val < s.regs.toList.length := by simp
    rw [if_neg hne, State.portS_reg_other s i h, List.getElem?_eq_getElem hlt, Option.getD_some, Vector.getElem_toList]
    rfl

/-- The operand of the fetched word, as the fault lines read it and as the instruction resolves it. -/
theorem State.stepOp2_eq {o : Operand2} (ho : Operand2.ofMode s.fetchedFields.mode s.fetchedFields.operand2 = some o)
    {w : Word} (hw : resolve s.portS o = some w) : s.stepOp2 = w := by
  obtain ⟨hmode, hraw⟩ := Operand2.ofMode_some ho
  unfold State.stepOp2
  rw [← hmode, ← hraw]
  cases o with
  | direct n =>
    obtain ⟨i, hi, rfl⟩ := Option.map_eq_some_iff.1 hw
    have hn : (Operand2.direct n).raw.toNat = i.val := (regIdx?_some hi).symm
    have hdirect : (Operand2.direct n).mode = 0#3 := rfl
    rw [if_pos hdirect, hn, State.stepReg_eq]
  | immediate x =>
    have himmediate : (Operand2.immediate x).mode ≠ 0#3 := nofun
    rw [resolve_immediate, Option.some_inj] at hw
    rw [if_neg himmediate, Operand2.raw, BitVec.ofNat_toNat, ← hw]

/-- The line of operand2 by the mode and operand2 fields. -/
theorem not_inRange_eq (o : Operand2) :
    (!o.inRange) = (decide (o.mode.toNat = 0) && decide (14 ≤ o.raw.toNat)) := by
  cases o with
  | direct n =>
    have hnot : (!decide (n.toNat < 14)) = decide (14 ≤ n.toNat) := by
      rw [← decide_not]
      exact decide_eq_decide.2 Nat.not_lt
    exact hnot.trans (Bool.true_and _).symm
  | immediate x => rfl

/-- The list of a step whose word is legal ends in the lines of its instruction. -/
theorem executeLines_eq {i : Instr} (hi : decodeFields s.fetchedFields = .ok i) :
    executeLines s i s.stepOp2 (s.stepReg i.rn.toNat) = s.faultLines.drop 4 := by
  obtain ⟨op, o, hop, ho, rfl⟩ := decodeFields_ok hi
  obtain ⟨hmode, hraw⟩ := Operand2.ofMode_some ho
  simp only [executeLines, deviceLines, State.faultLines, List.drop_succ_cons, List.drop_zero, hop, Option.map_some,
    Option.getD_some, Option.some.injEq, Opcode.instr_opcode, Opcode.instr_rn, Opcode.instr_rd, Opcode.instr_op2,
    not_inRange_eq, hmode, hraw]

/-- The first four lines are the head of the step: where none applies it executes an instruction. -/
theorem head_follows {ls : List FaultLine} {waits : Bool} (hf : s.fault = none)
    (h : ∀ i, decodeFields s.fetchedFields = .ok i → Follows ls waits (exec i s)) :
    Follows (⟨s.halted, .haltedStep s.pc⟩ ::
      ⟨s.params.memWords ≤ s.pc.toNat, .outOfRangeAddress .fetch s.pc.toNat s.pc⟩ ::
      ⟨20 ≤ s.fetchedFields.opcode.toNat, .illegalOpcode s.fetchedFields.opcode s.pc⟩ ::
      ⟨2 ≤ s.fetchedFields.mode.toNat, .illegalMode s.fetchedFields.mode s.pc⟩ :: ls) waits (step s) := by
  refine .line (fun hh => step_of_halted hf hh) fun hh => ?_
  refine .line (fun hp => step_of_fetch_fault hf hh (of_decide_eq_true hp)) fun hp => ?_
  have hlt : s.pc.toNat < s.params.memWords := Nat.not_le.1 (of_decide_eq_false hp)
  refine .line (fun hop => ?_) fun hop => ?_
  · exact step_of_decode_error hf hh hlt (decodeFields_of_illegalOpcode (of_decide_eq_true hop))
  have hoplt := Nat.not_le.1 (of_decide_eq_false hop)
  refine .line (fun hm => ?_) fun hm => ?_
  · exact step_of_decode_error hf hh hlt (decodeFields_of_illegalMode hoplt (of_decide_eq_true hm))
  obtain ⟨i, hi⟩ := exists_decodeFields_ok hoplt (Nat.not_le.1 (of_decide_eq_false hm))
  rw [step_eq_exec hf hh hlt hi]
  exact h i hi

/-- A step on a machine with no fault record does what R139's list says. -/
theorem step_follows (hf : s.fault = none) : Follows s.faultLines s.awaitsInput (step s) := by
  refine head_follows (ls := s.faultLines.drop 4) hf fun i hi => ?_
  obtain ⟨op, o, hop, ho, hieq⟩ := decodeFields_ok hi
  have hwaits : s.awaitsInput = waitsForLine s i := by
    simp only [State.awaitsInput, waitsForLine, hop, hieq, Opcode.instr_opcode, Option.some.injEq]
  rw [← executeLines_eq hi, hwaits]
  refine exec_follows i (fun w hw => ?_) (fun n hn => ?_)
  · rw [hieq, Opcode.instr_op2] at hw
    exact State.stepOp2_eq ho hw
  · rw [← hn, State.stepReg_eq]

/-- The three outcomes of a step with no fault record. -/
theorem step_outcome (hf : s.fault = none) :
    (∃ f, s.firstFault = some f ∧ step s = .fault f) ∨
    (s.firstFault = none ∧ s.awaitsInput = true ∧ step s = .refused .awaitingInput) ∨
    (s.firstFault = none ∧ s.awaitsInput = false ∧ ∃ t, step s = .next t) := by
  obtain ⟨hfault, hwait, hnext⟩ := step_follows hf
  cases h : s.firstFault with
  | some f => exact .inl ⟨f, rfl, hfault f h⟩
  | none =>
    cases hw : s.awaitsInput with
    | true => exact .inr (.inl ⟨rfl, rfl, hwait h hw⟩)
    | false => exact .inr (.inr ⟨rfl, rfl, hnext h hw⟩)

end

end Sys2Proof.Machine

namespace Sys2Proof.Claims

open Sys2Proof.Machine

/-- Settles O30. -/
theorem stepFaultsWithTheFirstThatApplies : Obligations.StepFaultsWithTheFirstThatApplies := by
  intro s f
  cases hrec : s.fault with
  | some g =>
    have hstep := step_of_fault_recorded (s := s) (by rw [hrec]; rfl)
    simp [hstep]
  | none =>
    obtain ⟨g, hg, hstep⟩ | ⟨hg, _, hstep⟩ | ⟨hg, _, t, hstep⟩ := step_outcome hrec <;> simp [hstep, hg]

/-- Settles O31. -/
theorem stepExistsUnlessItFaultsOrWaits : Obligations.StepExistsUnlessItFaultsOrWaits := by
  intro s
  cases hrec : s.fault with
  | some g =>
    have hstep := step_of_fault_recorded (s := s) (by rw [hrec]; rfl)
    simp [hstep]
  | none =>
    obtain ⟨g, hg, hstep⟩ | ⟨hg, hw, hstep⟩ | ⟨hg, hw, t, hstep⟩ := step_outcome hrec
    · simp [hstep, hg]
    · simp [hstep, hg, hw]
    · simp [hstep, hg, hw]

end Sys2Proof.Claims

/-! ### The decimal rendering (R127) -/

namespace Sys2Proof.Machine

theorem digitChar_val {d : Nat} (h : d < 10) : (digitChar d).val = 48 + d := Nat.mod_eq_of_lt (by omega)

theorem decDigits_of_lt (k : Nat) {n : Nat} (h : n < 10) : decDigits (k + 1) n = [digitChar n] := if_pos h

theorem decDigits_of_ge (k : Nat) {n : Nat} (h : 10 ≤ n) :
    decDigits (k + 1) n = decDigits k (n / 10) ++ [digitChar (n % 10)] := if_neg (Nat.not_lt.2 h)

theorem decDigits_length_le (k n : Nat) : (decDigits k n).length ≤ k := by
  induction k generalizing n with
  | zero => exact Nat.le_refl 0
  | succ k ih =>
    obtain h | h := Nat.lt_or_ge n 10
    · rw [decDigits_of_lt k h]
      exact Nat.succ_le_succ (Nat.zero_le k)
    · rw [decDigits_of_ge k h, List.length_append]
      exact Nat.succ_le_succ (ih _)

theorem decDigits_ne_nil (k n : Nat) : decDigits (k + 1) n ≠ [] := by
  obtain h | h := Nat.lt_or_ge n 10
  · simp [decDigits_of_lt k h]
  · simp [decDigits_of_ge k h]

theorem decDigits_mem {k n : Nat} {c : CodePoint} (hc : c ∈ decDigits k n) : 48 ≤ c.val ∧ c.val ≤ 57 := by
  induction k generalizing n with
  | zero => cases hc
  | succ k ih =>
    obtain h | h := Nat.lt_or_ge n 10
    · rw [decDigits_of_lt k h, List.mem_singleton] at hc
      rw [hc, digitChar_val h]
      omega
    · rw [decDigits_of_ge k h, List.mem_append, List.mem_singleton] at hc
      obtain hc | rfl := hc
      · exact ih hc
      · rw [digitChar_val (Nat.mod_lt n (by decide))]
        omega

/-- Read back as a base-10 number, enough digits give the value. -/
theorem decDigits_value {k n : Nat} (h : n < 10 ^ k) :
    (decDigits k n).foldl (fun m c => 10 * m + (c.val - 48)) 0 = n := by
  induction k generalizing n with
  | zero => rw [Nat.lt_one_iff.1 h]; rfl
  | succ k ih =>
    obtain hlt | hge := Nat.lt_or_ge n 10
    · rw [decDigits_of_lt k hlt, List.foldl_cons, List.foldl_nil, digitChar_val hlt]
      omega
    · have hdiv : n / 10 < 10 ^ k := Nat.div_lt_of_lt_mul (by rwa [Nat.pow_succ'] at h)
      rw [decDigits_of_ge k hge, List.foldl_append, ih hdiv, List.foldl_cons, List.foldl_nil,
        digitChar_val (Nat.mod_lt n (by decide))]
      omega

/-- The first digit is that of a number below 10, and is 0 only where the whole number is. -/
theorem decDigits_head_zero {k n : Nat} (h : n < 10 ^ k) (h0 : (decDigits k n).head? = some 48) : n = 0 := by
  induction k generalizing n with
  | zero => exact Nat.lt_one_iff.1 h
  | succ k ih =>
    obtain hlt | hge := Nat.lt_or_ge n 10
    · rw [decDigits_of_lt k hlt, List.head?_cons, Option.some_inj] at h0
      have hval := digitChar_val hlt
      rw [h0] at hval
      have h48 : (48 : CodePoint).val = 48 := rfl
      omega
    · have hdiv : n / 10 < 10 ^ k := Nat.div_lt_of_lt_mul (by rwa [Nat.pow_succ'] at h)
      have hne : decDigits k (n / 10) ≠ [] := by
        cases k with
        | zero => omega
        | succ k => exact decDigits_ne_nil k _
      rw [decDigits_of_ge k hge, List.head?_append_of_ne_nil _ hne] at h0
      have := ih hdiv h0
      omega

end Sys2Proof.Machine

namespace Sys2Proof.Claims

open Sys2Proof.Machine

/-- Settles O26: ten digits hold every 32-bit value. -/
theorem decimalRenderingReadsBack : Obligations.DecimalRenderingReadsBack := by
  intro v
  have hv : v.toNat < 10 ^ 10 := Nat.lt_trans v.isLt (by decide)
  refine ⟨List.length_pos_iff.2 (decDigits_ne_nil 9 _), decDigits_length_le 10 _, fun _ => decDigits_mem,
    decDigits_value hv, fun h0 => ?_⟩
  rw [decText, decDigits_head_zero hv h0]
  rfl

end Sys2Proof.Claims

/-! ### Assembled operands and instructions (R79 to R87, R92) -/

namespace Sys2Proof.Machine

/-- A sequence that answers had an answer in each of its parts. -/
theorem bind_ok {ε α β : Type} {x : Except ε α} {f : α → Except ε β} {b : β} (h : x >>= f = .ok b) :
    ∃ a, x = .ok a ∧ f a = .ok b := by
  cases x with
  | ok a => exact ⟨a, rfl, h⟩
  | error e => cases h

theorem map_ok {ε α β : Type} {x : Except ε α} {f : α → β} {b : β} (h : x.map f = .ok b) :
    ∃ a, x = .ok a ∧ f a = b := by
  cases x with
  | ok a => exact ⟨a, rfl, Except.ok.inj h⟩
  | error e => cases h

/-- Where a token's operand comes from, in R82's order: a register name, a label, a literal. -/
theorem resolveToken_ok {labels : List Label} {t : Text} {o : Operand2} (h : resolveToken labels t = .ok o) :
    (∃ i, register? t = some i ∧ o = .direct (BitVec.ofNat 16 i.val)) ∨
    (register? t = none ∧ ∃ l, findLabel labels t = some l ∧ immediateField t l.address = .ok o) ∨
    (register? t = none ∧ findLabel labels t = none ∧
      ∃ v, literal? (stripHash t) = some v ∧ immediateField t v = .ok o) := by
  unfold resolveToken at h
  split at h
  · next i hi => cases h; exact .inl ⟨i, hi, rfl⟩
  · next hreg =>
    split at h
    · cases h
    · split at h
      · next l hl => exact .inr (.inl ⟨hreg, l, hl, h⟩)
      · next hl =>
        split at h
        · next v hv => exact .inr (.inr ⟨hreg, hl, v, hv, h⟩)
        · cases h

/-- The 16 bits of an accepted immediate are its value: it was at most 65535. -/
theorem immediateField_toNat {t : Text} {v : Nat} {x : BitVec 16} (h : immediateField t v = .ok (.immediate x)) :
    x.toNat = v := by
  obtain ⟨hv, hx⟩ := immediateField_ok h
  cases hx
  exact Nat.mod_eq_of_lt (Nat.lt_succ_of_le hv)

/-- The fields the assembler packs for an opcode: registers that exist, 0 in every field the opcode does not use but
INP's rd, and direct 0 for HALT (R81, R86, D36). -/
structure AssembledFields (op : Opcode) (rn rd : BitVec 4) (o : Operand2) : Prop where
  op2_inRange : o.inRange = true
  rn_lt : rn.toNat < 14
  rd_lt : rd.toNat < 14
  rn_unused : op.usesRn = true ∨ rn = 0#4
  rd_unused : op.usesRd = true ∨ op = .inp ∨ rd = 0#4
  halt_op2 : op = .halt → o = .direct 0#16

theorem AssembledFields.assemblerForm {op : Opcode} {rn rd : BitVec 4} {o : Operand2}
    (h : AssembledFields op rn rd o) : (op.instr rn rd o).assemblerForm = true := by
  have hrd : (op.usesRd = true ∨ op = .inp) ∨ rd = 0#4 := or_assoc.2 h.rd_unused
  simp only [Instr.assemblerForm, Instr.wellFormed, Opcode.instr_opcode, Opcode.instr_rn, Opcode.instr_rd,
    Opcode.instr_op2, h.op2_inRange, h.rn_lt, h.rd_lt, decide_true, Bool.or_true, Bool.true_and, Bool.and_true,
    Bool.and_eq_true, Bool.or_eq_true, Bool.not_eq_true', decide_eq_true_eq, decide_eq_false_iff_not]
  exact ⟨⟨h.rn_unused, hrd⟩, not_or_of_imp h.halt_op2⟩

/-! Which register fields the opcodes of a shape use. -/

section
variable {op : Opcode}

theorem usesRn_of_shape (h : op.shape = .registerOperand2NoDestination ∨ op.shape = .registerRegisterOperand2) :
    op.usesRn = true := by
  revert h
  cases op <;> decide

theorem usesRd_of_shape (h : op.shape = .registerOperand2 ∨ op.shape = .registerRegisterOperand2) :
    op.usesRd = true := by
  revert h
  cases op <;> decide

theorem usesRd_or_inp_of_shape (h : op.shape = .registerAddress) (hne : op ≠ .out) :
    op.usesRd = true ∨ op = .inp := by
  revert h hne
  cases op <;> decide

/-- HALT alone has the shape without operands, so that a claim about HALT is void for an opcode of another shape. -/
theorem halt_of_shape {sh : Shape} {p : Prop} (hs : op.shape = sh) (h : sh ≠ .none) (e : op = .halt) : p :=
  absurd (by rw [← hs, e]; rfl) h

end

theorem registerField_lt {t : Text} {f : BitVec 4} (h : registerField t = .ok f) : f.toNat < 14 := by
  obtain ⟨i, _, hf⟩ := registerField_ok h
  exact hf ▸ i.isLt

/-- What the assembler makes of an opcode and its operand tokens. -/
theorem assembleInstr_ok {labels : List Label} {op : Opcode} {args : List Text} {i : Instr}
    (h : assembleInstr labels op args = .ok i) :
    ∃ rn rd o, i = op.instr rn rd o ∧ AssembledFields op rn rd o := by
  have h0 : (0#4).toNat < 14 := by decide
  unfold assembleInstr at h
  split at h
  · next t1 hs =>
    obtain ⟨o, ho, h⟩ := bind_ok h
    cases h
    exact ⟨_, _, o, rfl, resolveToken_inRange ho, h0, h0, .inr rfl, .inr (.inr rfl), halt_of_shape hs nofun⟩
  · next t1 t2 hs =>
    obtain ⟨r, hr, h⟩ := bind_ok h
    obtain ⟨o, ho, h⟩ := bind_ok h
    by_cases hout : op = .out
    · rw [if_pos hout] at h
      cases h
      exact ⟨r, _, o, rfl, resolveToken_inRange ho, registerField_lt hr, h0, .inl (by rw [hout]; rfl),
        .inr (.inr rfl), halt_of_shape hs nofun⟩
    · rw [if_neg hout] at h
      cases h
      exact ⟨_, r, o, rfl, resolveToken_inRange ho, h0, registerField_lt hr, .inr rfl,
        (usesRd_or_inp_of_shape hs hout).imp_right .inl, halt_of_shape hs nofun⟩
  · next t1 t2 hs =>
    obtain ⟨r, hr, h⟩ := bind_ok h
    obtain ⟨o, ho, h⟩ := bind_ok h
    cases h
    exact ⟨_, r, o, rfl, resolveToken_inRange ho, h0, registerField_lt hr, .inr rfl,
      .inl (usesRd_of_shape (.inl hs)), halt_of_shape hs nofun⟩
  · next t1 t2 hs =>
    obtain ⟨r, hr, h⟩ := bind_ok h
    obtain ⟨o, ho, h⟩ := bind_ok h
    cases h
    exact ⟨r, _, o, rfl, resolveToken_inRange ho, registerField_lt hr, h0,
      .inl (usesRn_of_shape (.inl hs)), .inr (.inr rfl), halt_of_shape hs nofun⟩
  · next t1 t2 t3 hs =>
    obtain ⟨d, hd, h⟩ := bind_ok h
    obtain ⟨n, hn, h⟩ := bind_ok h
    obtain ⟨o, ho, h⟩ := bind_ok h
    cases h
    exact ⟨n, d, o, rfl, resolveToken_inRange ho, registerField_lt hn, registerField_lt hd,
      .inl (usesRn_of_shape (.inr hs)), .inl (usesRd_of_shape (.inr hs)), halt_of_shape hs nofun⟩
  · cases h
    exact ⟨_, _, _, rfl, rfl, h0, h0, .inr rfl, .inr (.inr rfl), fun _ => rfl⟩
  · cases h

theorem encodeUnit_of_mnemonic {labels : List Label} {t : Text} {args : List Text} {op : Opcode}
    (h : mnemonic? t = some op) :
    encodeUnit labels (t :: args) = (assembleInstr labels op args).map encode := by
  simp only [encodeUnit, h]

end Sys2Proof.Machine

namespace Sys2Proof.Claims

open Sys2Proof.Machine

/-- Settles O42. -/
theorem assembledImmediateIsNotTruncated : Obligations.AssembledImmediateIsNotTruncated := by
  intro labels t x h
  obtain ⟨i, _, hdirect⟩ | ⟨hreg, l, hl, himm⟩ | ⟨hreg, hl, v, hv, himm⟩ := resolveToken_ok h
  · cases hdirect
  · exact ⟨hreg, .inl ⟨l, hl, immediateField_toNat himm⟩⟩
  · exact ⟨hreg, .inr ⟨hl, by rw [hv, immediateField_toNat himm]⟩⟩

/-- Settles O43: the word is the encoding of the assembled instruction, which decodes back, and the operands gave it the
fields of the assembler's form. -/
theorem assembledInstructionDecodesBack : Obligations.AssembledInstructionDecodesBack := by
  intro labels t args op w hop h
  rw [encodeUnit_of_mnemonic hop] at h
  obtain ⟨i, hi, rfl⟩ := map_ok h
  obtain ⟨rn, rd, o, rfl, hfields⟩ := assembleInstr_ok hi
  exact ⟨_, hi, decode_encode _, Opcode.instr_opcode op rn rd o, hfields.assemblerForm⟩

end Sys2Proof.Claims

/-! ### Parsing line by line (R72 to R77) -/

namespace Sys2Proof.Machine

theorem parseLines_cons_of_ok {k : Nat} {line : Text} {p q : Parsed} (h : parseLine k line p = .ok q)
    (rest : List Text) : parseLines k (line :: rest) p = parseLines (k + 1) rest q := by
  rw [parseLines, h]

theorem parseLines_cons_of_error {k : Nat} {line : Text} {p : Parsed} {e : AsmError}
    (h : parseLine k line p = .error e) (rest : List Text) : parseLines k (line :: rest) p = .error e := by
  rw [parseLines, h]

theorem parseLines_cons_ok {k : Nat} {line : Text} {rest : List Text} {p r : Parsed}
    (h : parseLines k (line :: rest) p = .ok r) :
    ∃ q, parseLine k line p = .ok q ∧ parseLines (k + 1) rest q = .ok r := by
  cases hl : parseLine k line p with
  | error e => rw [parseLines_cons_of_error hl] at h; cases h
  | ok q => exact ⟨q, rfl, parseLines_cons_of_ok hl rest ▸ h⟩

/-- Parsing a text in two parts: the second goes on where the first ended. -/
theorem parseLines_append {k : Nat} {lines : List Text} {p r : Parsed} (h : parseLines k lines p = .ok r)
    (more : List Text) : parseLines k (lines ++ more) p = parseLines (k + lines.length) more r := by
  induction lines generalizing k p with
  | nil => cases h; rfl
  | cons line rest ih =>
    obtain ⟨q, hl, hrest⟩ := parseLines_cons_ok h
    have hindex : k + (rest.length + 1) = k + 1 + rest.length := by omega
    rw [List.cons_append, parseLines_cons_of_ok hl, ih hrest, List.length_cons, hindex]

/-- What holds of no lines, and is kept when one more is parsed, holds of all lines parsed. -/
theorem parseLines_keeps {P : List Text → Parsed → Prop} (hnil : P [] ⟨[], []⟩)
    (hline : ∀ pre line p q, P pre p → parseLine pre.length line p = .ok q → P (pre ++ [line]) q)
    {lines : List Text} {p : Parsed} (h : parseLines 0 lines ⟨[], []⟩ = .ok p) : P lines p := by
  suffices hrest : ∀ (rest pre : List Text) (q : Parsed), P pre q → parseLines pre.length rest q = .ok p →
      P (pre ++ rest) p from hrest lines [] _ hnil h
  intro rest
  induction rest with
  | nil =>
    intro pre q hq hp
    cases hp
    rwa [List.append_nil]
  | cons line rest ih =>
    intro pre q hq hp
    obtain ⟨q', hl, hrest⟩ := parseLines_cons_ok hp
    have hlen : pre.length + 1 = (pre ++ [line]).length := by rw [List.length_append]; rfl
    rw [hlen] at hrest
    have hall := ih (pre ++ [line]) q' (hline pre line q q' hq hl) hrest
    rwa [List.append_assoc] at hall

end Sys2Proof.Machine

namespace Sys2Proof.Claims

open Sys2Proof.Machine

/-- How many words the lines hold: the address of the unit after them (R73). -/
def unitCount (lines : List Text) : Nat := (lines.filter isUnitLine).length

theorem unitCount_concat (pre : List Text) (line : Text) :
    unitCount (pre ++ [line]) = if isUnitLine line then unitCount pre + 1 else unitCount pre := by
  unfold unitCount
  rw [List.filter_append, List.length_append]
  cases h : isUnitLine line
  · rw [List.filter_singleton, h]; rfl
  · rw [List.filter_singleton, h]; rfl

theorem isUnitLine_eq (line : Text) : isUnitLine line = !(tokenize line).tokens.isEmpty := rfl

/-- The line at index `n` of `pre` is `line`, and it has `k` unit lines before it. -/
structure LineAt (pre : List Text) (n k : Nat) (line : Text) : Prop where
  getElem : pre[n]? = some line
  before : unitCount (pre.take n) = k

theorem LineAt.concat {pre : List Text} {n k : Nat} {line : Text} (h : LineAt pre n k line) (more : Text) :
    LineAt (pre ++ [more]) n k line := by
  obtain ⟨hlt, _⟩ := List.getElem?_eq_some_iff.1 h.getElem
  refine ⟨?_, ?_⟩
  · rw [List.getElem?_append_left hlt, h.getElem]
  · rw [List.take_append_of_le_length (Nat.le_of_lt hlt), h.before]

theorem LineAt.last (pre : List Text) (line : Text) : LineAt (pre ++ [line]) pre.length (unitCount pre) line := by
  refine ⟨List.getElem?_concat_length, ?_⟩
  rw [List.take_append_of_le_length (Nat.le_refl _), List.take_length]

/-- What parsing has gathered from `pre`: a unit for each unit line, in order, each with its line and its tokens. -/
structure UnitsOf (pre : List Text) (p : Parsed) : Prop where
  length : p.units.length = unitCount pre
  line : ∀ (k : Nat) (u : AsmUnit), p.units[k]? = some u →
    ∃ line, LineAt pre u.line k line ∧ isUnitLine line = true ∧ u.tokens = (tokenize line).tokens

theorem UnitsOf.parseLine {pre : List Text} {line : Text} {p q : Parsed} (h : UnitsOf pre p)
    (hl : Machine.parseLine pre.length line p = .ok q) : UnitsOf (pre ++ [line]) q := by
  have hunits := parseLine_units hl
  have hold : ∀ (k : Nat) (u : AsmUnit), p.units[k]? = some u →
      ∃ line', LineAt (pre ++ [line]) u.line k line' ∧ isUnitLine line' = true ∧
        u.tokens = (tokenize line').tokens := by
    intro k u hu
    obtain ⟨line', hat, hrest⟩ := h.line k u hu
    exact ⟨line', hat.concat line, hrest⟩
  cases hu : isUnitLine line with
  | false =>
    have hempty : (tokenize line).tokens.isEmpty = true := by simpa [isUnitLine_eq] using hu
    rw [if_pos hempty] at hunits
    refine ⟨?_, ?_⟩
    · rw [hunits, h.length, unitCount_concat, hu]; rfl
    · rwa [hunits]
  | true =>
    have hne : ¬ (tokenize line).tokens.isEmpty = true := by simpa [isUnitLine_eq] using hu
    rw [if_neg hne] at hunits
    refine ⟨?_, fun k u hk => ?_⟩
    · rw [hunits, List.length_append, h.length, unitCount_concat, hu]; rfl
    · rw [hunits] at hk
      obtain hlt | hge := Nat.lt_or_ge k p.units.length
      · rw [List.getElem?_append_left hlt] at hk
        exact hold k u hk
      · rw [List.getElem?_append_right hge, List.getElem?_singleton] at hk
        obtain ⟨hk0, hlast⟩ := Option.ite_none_right_eq_some.1 hk
        cases hlast
        have hkeq : k = unitCount pre := by rw [← h.length]; omega
        exact ⟨line, hkeq ▸ LineAt.last pre line, hu, rfl⟩

theorem parseLines_unitsOf {lines : List Text} {p : Parsed} (h : parseLines 0 lines ⟨[], []⟩ = .ok p) :
    UnitsOf lines p :=
  parseLines_keeps (P := UnitsOf) ⟨rfl, nofun⟩ (fun _ _ _ _ hp hl => hp.parseLine hl) h

/-- The label table of `pre`: every label of a line is in it, and each entry comes from its line and names the next
unit; the names are distinct and good. -/
structure LabelsOf (pre : List Text) (p : Parsed) : Prop where
  nodup : (p.labels.map (·.name)).Nodup
  complete : ∀ (n : Nat) (line name : Text), pre[n]? = some line → (tokenize line).label = some name →
    ∃ l ∈ p.labels, l.name = name ∧ l.line = n
  sound : ∀ l ∈ p.labels, labelNameOk l.name = true ∧
    ∃ line, LineAt pre l.line l.address line ∧ (tokenize line).label = some l.name

theorem findLabel_none {labels : List Label} {name : Text} (h : findLabel labels name = none) :
    name ∉ labels.map (·.name) := by
  intro hmem
  obtain ⟨l, hl, rfl⟩ := List.mem_map.1 hmem
  exact List.find?_eq_none.1 h l hl (beq_self_eq_true l.name)

/-- The line at an index of `pre` with one line more. -/
theorem getElem?_concat {pre : List Text} {line line' : Text} {n : Nat} (h : (pre ++ [line])[n]? = some line') :
    pre[n]? = some line' ∨ n = pre.length ∧ line' = line := by
  obtain hlt | hge := Nat.lt_or_ge n pre.length
  · exact .inl (List.getElem?_append_left hlt ▸ h)
  · rw [List.getElem?_append_right hge, List.getElem?_singleton] at h
    obtain ⟨hn, hline⟩ := Option.ite_none_right_eq_some.1 h
    exact .inr ⟨by omega, (Option.some.inj hline).symm⟩

theorem LabelsOf.parseLine {pre : List Text} {line : Text} {p q : Parsed} (hu : UnitsOf pre p) (h : LabelsOf pre p)
    (hl : Machine.parseLine pre.length line p = .ok q) : LabelsOf (pre ++ [line]) q := by
  have hsound : ∀ l ∈ p.labels, labelNameOk l.name = true ∧
      ∃ line', LineAt (pre ++ [line]) l.line l.address line' ∧ (tokenize line').label = some l.name := by
    intro l hmem
    obtain ⟨hok, line', hat, hlabel⟩ := h.sound l hmem
    exact ⟨hok, line', hat.concat line, hlabel⟩
  obtain ⟨hnone, hlabels⟩ | ⟨name, hname, hok, hfind, hlabels⟩ := parseLine_labels hl
  · rw [← hlabels] at hsound
    refine ⟨by rw [hlabels]; exact h.nodup, fun n line' name hn hlabel => ?_, hsound⟩
    rw [hlabels]
    obtain hn | ⟨_, rfl⟩ := getElem?_concat hn
    · exact h.complete n line' name hn hlabel
    · rw [hnone] at hlabel
      cases hlabel
  · refine ⟨?_, fun n line' name' hn hlabel => ?_, fun l hmem => ?_⟩
    · rw [hlabels, List.map_append]
      refine List.nodup_append.2 ⟨h.nodup, List.nodup_singleton _, ?_⟩
      rintro a ha b hb rfl
      obtain rfl := List.mem_singleton.1 hb
      exact findLabel_none hfind ha
    · rw [hlabels]
      obtain hn | ⟨rfl, rfl⟩ := getElem?_concat hn
      · obtain ⟨l, hmem, hl⟩ := h.complete n line' name' hn hlabel
        exact ⟨l, List.mem_append_left _ hmem, hl⟩
      · rw [hname, Option.some_inj] at hlabel
        exact ⟨_, List.mem_append_right _ (List.mem_singleton_self _), hlabel, rfl⟩
    · rw [hlabels] at hmem
      obtain hmem | hmem := List.mem_append.1 hmem
      · exact hsound l hmem
      · obtain rfl := List.mem_singleton.1 hmem
        exact ⟨hok, line, hu.length ▸ LineAt.last pre line, hname⟩

theorem parseLines_labelsOf {lines : List Text} {p : Parsed} (h : parseLines 0 lines ⟨[], []⟩ = .ok p) :
    LabelsOf lines p := by
  have hboth : UnitsOf lines p ∧ LabelsOf lines p :=
    parseLines_keeps (P := fun pre q => UnitsOf pre q ∧ LabelsOf pre q)
      ⟨⟨rfl, nofun⟩, ⟨List.nodup_nil, nofun, nofun⟩⟩
      (fun _ _ _ _ ⟨hunits, hlabels⟩ hl => ⟨hunits.parseLine hl, hlabels.parseLine hunits hl⟩) h
  exact hboth.right

/-- Settles O45. -/
theorem labelsNameTheNextUnit : Obligations.LabelsNameTheNextUnit := by
  intro lines p h
  obtain ⟨hnodup, hcomplete, hsound⟩ := parseLines_labelsOf h
  refine ⟨hnodup, hcomplete, fun l hmem => ?_⟩
  obtain ⟨hok, line, hat, hlabel⟩ := hsound l hmem
  exact ⟨hok, ⟨line, hat.getElem, hlabel⟩, hat.before.symm⟩

/-- A line that defines a good name of the table again. -/
theorem parseLine_duplicate {k : Nat} {line name : Text} {p : Parsed} {l : Label}
    (hlabel : (tokenize line).label = some name) (hok : labelNameOk name = true)
    (hfind : findLabel p.labels name = some l) :
    Machine.parseLine k line p = .error ⟨.duplicateLabel name l.line k, p.units.length, k, trim line⟩ := by
  simp only [Machine.parseLine, hlabel, if_pos hok, hfind]

/-- Settles O46: the lines before parse, the line itself fails, and the address is the number of units so far. -/
theorem secondDefinitionIsDuplicateLabel : Obligations.SecondDefinitionIsDuplicateLabel := by
  intro lines more line p name l h hlabel hok hfind
  have hlen : p.units.length = (lines.filter isUnitLine).length := (parseLines_unitsOf h).length
  rw [parseLines_append h, Nat.zero_add, parseLines_cons_of_error (parseLine_duplicate hlabel hok hfind), hlen]

/-! ### The image and the source map (R69, R73, R76) -/

theorem encodeUnits_cons_ok {labels : List Label} {a : Nat} {u : AsmUnit} {rest : List AsmUnit} {ws : List Word}
    (h : encodeUnits labels a (u :: rest) = .ok ws) :
    ∃ w ws', encodeUnit labels u.tokens = .ok w ∧ encodeUnits labels (a + 1) rest = .ok ws' ∧ ws = w :: ws' := by
  rw [encodeUnits] at h
  cases hw : encodeUnit labels u.tokens with
  | error e => rw [hw] at h; cases h
  | ok w =>
    cases hws : encodeUnits labels (a + 1) rest with
    | error e => rw [hw, hws] at h; cases h
    | ok ws' =>
      rw [hw, hws] at h
      exact ⟨w, ws', rfl, rfl, (Except.ok.inj h).symm⟩

/-- The words are those of the units, one each and in order. -/
theorem encodeUnits_getElem? {labels : List Label} {a : Nat} {units : List AsmUnit} {ws : List Word}
    (h : encodeUnits labels a units = .ok ws) :
    ws.length = units.length ∧ ∀ (k : Nat) (w : Word), ws[k]? = some w →
      ∃ u, units[k]? = some u ∧ encodeUnit labels u.tokens = .ok w := by
  induction units generalizing a ws with
  | nil => cases h; exact ⟨rfl, nofun⟩
  | cons u rest ih =>
    obtain ⟨w, ws', hw, hws, rfl⟩ := encodeUnits_cons_ok h
    obtain ⟨hlen, hget⟩ := ih hws
    refine ⟨congrArg (· + 1) hlen, fun k x hx => ?_⟩
    cases k with
    | zero =>
      cases hx
      exact ⟨u, rfl, hw⟩
    | succ k => exact hget k x hx

theorem assemble_ok {text : Text} {a : Assembly} (h : assemble text = .ok a) :
    ∃ p ws, parseLines 0 (sourceLines text) ⟨[], []⟩ = .ok p ∧ encodeUnits p.labels 0 p.units = .ok ws ∧
      a = ⟨ws, p.units.map (·.line)⟩ := by
  unfold assemble at h
  split at h
  · cases h
  · next p hp =>
    split at h
    · cases h
    · next ws hws => exact ⟨p, ws, hp, hws, (Except.ok.inj h).symm⟩

/-- Settles O44: each word is that of the unit at its place, and each unit is that of its line. -/
theorem assembledWordsComeFromTheirLines : Obligations.AssembledWordsComeFromTheirLines := by
  intro text a h
  obtain ⟨p, ws, hp, hws, rfl⟩ := assemble_ok h
  obtain ⟨hlen, hget⟩ := encodeUnits_getElem? hws
  obtain ⟨hcount, hline⟩ := parseLines_unitsOf hp
  refine ⟨p, hp, by rw [hlen, List.length_map], hlen.trans hcount, fun k w hw => ?_⟩
  obtain ⟨u, hu, henc⟩ := hget k w hw
  obtain ⟨line, hat, hunit, htokens⟩ := hline k u hu
  refine ⟨u.line, line, ?_, hat.getElem, hunit, hat.before, htokens ▸ henc⟩
  rw [List.getElem?_map, hu, Option.map_some]

end Sys2Proof.Claims
